-- ==== Sys2Proof/Word.lean ====
section
/-! DEFINITION. Word.lean: the word types of the prog-vi CORE, the names of its two general registers and the
17-bit memory cell (spec/00_scope.md R5 to R7, spec/10_state.md R21, R22, spec/20_memory.md R61). -/

namespace Sys2Proof

/-- A data byte, and the width of R1, R2 and PC (R5, XLEN = 8). -/
abbrev Byte := BitVec 8

/-- An instruction word (R5, IW = 16; R91). -/
abbrev Word := BitVec 16

/-- The two general registers an operand can name (R21, R22). -/
inductive Reg where
  | r1
  | r2
  deriving DecidableEq, Repr

/-- A memory cell, 17 bits: `tag` is bit 16, `payload` bits 15..0 (R61). `tag = true` is an instruction word. -/
structure Cell where
  tag : Bool
  payload : Word
  deriving DecidableEq, Repr

end Sys2Proof
end

