-- ==== Sys2Proof/Syntax.lean ====
section
/-! DEFINITION. Syntax.lean: the 18 instructions of the prog-vi ISA, one constructor per row of the opcode table,
in the table's order, operands in the order of the text form (spec/30_encoding.md R97). -/

namespace Sys2Proof

/-- The instructions. Register operands are R1 or R2 (R22); every immediate is one byte (R101). -/
inductive Instr where
  /-- `LOAD dst addr` (R130) -/
  | load (dst : Reg) (addr : Byte)
  /-- `STORE addr src` (R131) -/
  | store (addr : Byte) (src : Reg)
  /-- `ADD dst src` (R142) -/
  | add (dst src : Reg)
  /-- `SUB dst src` (R143) -/
  | sub (dst src : Reg)
  /-- `AND dst src` (R144) -/
  | and (dst src : Reg)
  /-- `OR dst src` (R145) -/
  | or (dst src : Reg)
  /-- `XOR dst src` (R146) -/
  | xor (dst src : Reg)
  /-- `MOV dst literal` (R160) -/
  | mov (dst : Reg) (literal : Byte)
  /-- `CMP a b` (R161) -/
  | cmp (a b : Reg)
  /-- `JE addr` (R170) -/
  | je (addr : Byte)
  /-- `JNE addr` (R171) -/
  | jne (addr : Byte)
  /-- `PUSH reg` (R180) -/
  | push (reg : Reg)
  /-- `POP reg` (R181) -/
  | pop (reg : Reg)
  /-- `CALL addr` (R182) -/
  | call (addr : Byte)
  /-- `RET` (R183) -/
  | ret
  /-- `ALLOC reg size` (R184) -/
  | alloc (reg : Reg) (size : Byte)
  /-- `FOR reg count` (R200) -/
  | forLoop (reg : Reg) (count : Byte)
  /-- `ENDFOR` (R201) -/
  | endFor
  deriving DecidableEq, Repr

end Sys2Proof
end

