-- ==== Sys2Proof/WellFormed.lean ====
section
/-! DEFINITION. WellFormed.lean: the checks on raw data that the spec states. An `Instr` needs none: a register operand
is R1 or R2 and an immediate is a byte by their types, so every `Instr` is an instruction of the hardware (R22, R101).
What can be ill-formed is what comes from outside: a register field, a cell, a memory size, a program. -/

namespace Sys2Proof

/-- A 2-bit register field names a register when it is `00` or `01`; `10` and `11` are reserved (R22). -/
def regFieldWf (f : BitVec 2) : Bool := f == 0 || f == 1

/-- A cell with tag 0 has `payload[15:8] = 0` (R61, and the cell clause of R43). -/
def Cell.wf (c : Cell) : Bool := c.tag || c.payload.extractLsb' 8 8 == 0

/-- A memory size the hardware has: 16 ≤ n ≤ 256 (R30, R301). -/
def sizeWf (n : BitVec 9) : Bool := decide (16 ≤ n.toNat) && decide (n.toNat ≤ 256)

/-- A program the load port takes whole: at most 16 words (R79, R302). -/
def programWf (ws : List Word) : Bool := decide (ws.length ≤ 16)

end Sys2Proof
end

