-- ==== Sys2Proof/Decode.lean ====
section
/-! DEFINITION. Decode.lean: the total decoder from a 17-bit cell (spec/30_encoding.md R100) and, after it, the encoder
written from the same tables (R91 to R97). -/

namespace Sys2Proof

/-- What a cell decodes to: two rejections, each with its name, or an instruction (R98 to R100). -/
inductive Decoded where
  /-- tag 0, or opcode field 0 or 19..31 (R99) -/
  | unknown
  /-- a known opcode with a must-be-zero bit set (R98) -/
  | malformed
  /-- a valid word (R97) -/
  | valid (i : Instr)
  deriving DecidableEq, Repr

/-- A data cell: tag 0, `payload[7:0]` the byte, `payload[15:8]` zero (R61). -/
def Cell.byte (v : Byte) : Cell := { tag := false, payload := v.setWidth 16 }

/-- An instruction cell: tag 1, the payload is the word (R61). -/
def Cell.instr (w : Word) : Cell := { tag := true, payload := w }

/-- The byte a data access takes from a cell, `payload[7:0]` (R61). -/
def Cell.data (c : Cell) : Byte := c.payload.extractLsb' 0 8

/-- The cell as 17 bits, the tag on top (R61). -/
def Cell.bits (c : Cell) : BitVec 17 := BitVec.ofBool c.tag ++ c.payload

/-- Field `op`, bits 15:11 (R91). -/
def opField (w : Word) : Nat := (w.extractLsb' 11 5).toNat

/-- The register a field's low bit names: 0 = R1, 1 = R2 (R22). -/
def Reg.ofBit (b : Bool) : Reg := if b then .r2 else .r1

/-- The low bit of a register's field (R22). -/
def Reg.bit : Reg → Nat
  | .r1 => 0
  | .r2 => 1

/-- Field `ra` of a word whose bit 10 is zero (R91, R100). -/
def raField (w : Word) : Reg := Reg.ofBit (w.getLsbD 9)

/-- Field `rb` of a word whose bit 8 is zero (R91, R100). -/
def rbField (w : Word) : Reg := Reg.ofBit (w.getLsbD 7)

/-- Field `imm`, bits 7:0 (R91). -/
def immField (w : Word) : Byte := w.extractLsb' 0 8

/-- The must-be-zero mask of an opcode's format (R97: RI 0x0500, RR 0x057F, I 0x0700, R 0x05FF, Z 0x07FF). -/
def mbzMask (op : Nat) : Word :=
  match op with
  | 1 | 2 | 8 | 16 | 17 => 0x0500#16
  | 3 | 4 | 5 | 6 | 7 | 9 => 0x057F#16
  | 10 | 11 | 14 => 0x0700#16
  | 12 | 13 => 0x05FF#16
  | 15 | 18 => 0x07FF#16
  | _ => 0#16

/-- The instruction of an opcode, with the fields of its format read from the word; none for 0 and 19..31 (R97). -/
def instrOf (op : Nat) (w : Word) : Option Instr :=
  match op with
  | 1 => some (.load (raField w) (immField w))
  | 2 => some (.store (immField w) (raField w))
  | 3 => some (.add (raField w) (rbField w))
  | 4 => some (.sub (raField w) (rbField w))
  | 5 => some (.and (raField w) (rbField w))
  | 6 => some (.or (raField w) (rbField w))
  | 7 => some (.xor (raField w) (rbField w))
  | 8 => some (.mov (raField w) (immField w))
  | 9 => some (.cmp (raField w) (rbField w))
  | 10 => some (.je (immField w))
  | 11 => some (.jne (immField w))
  | 12 => some (.push (raField w))
  | 13 => some (.pop (raField w))
  | 14 => some (.call (immField w))
  | 15 => some .ret
  | 16 => some (.alloc (raField w) (immField w))
  | 17 => some (.forLoop (raField w) (immField w))
  | 18 => some .endFor
  | _ => none

/-- Classification of an instruction word: the opcode is looked at first, then the must-be-zero bits (R98, R99, R269). -/
def decodeWord (w : Word) : Decoded :=
  match instrOf (opField w) w with
  | none => .unknown
  | some i => if w &&& mbzMask (opField w) = 0#16 then .valid i else .malformed

/-- The decoder, total on all 2^17 cells (R100). -/
def decode (c : Cell) : Decoded := if c.tag then decodeWord c.payload else .unknown

/-- `w = (op << 11) | (ra << 9) | (rb << 7) | imm` (R97). -/
def wordOf (op ra rb imm : Nat) : Word := BitVec.ofNat 16 (op <<< 11 ||| ra <<< 9 ||| rb <<< 7 ||| imm)

/-- The word of an instruction; the fields its format lacks are 0 (R97). -/
def encode : Instr → Word
  | .load dst addr => wordOf 1 dst.bit 0 addr.toNat
  | .store addr src => wordOf 2 src.bit 0 addr.toNat
  | .add dst src => wordOf 3 dst.bit src.bit 0
  | .sub dst src => wordOf 4 dst.bit src.bit 0
  | .and dst src => wordOf 5 dst.bit src.bit 0
  | .or dst src => wordOf 6 dst.bit src.bit 0
  | .xor dst src => wordOf 7 dst.bit src.bit 0
  | .mov dst literal => wordOf 8 dst.bit 0 literal.toNat
  | .cmp a b => wordOf 9 a.bit b.bit 0
  | .je addr => wordOf 10 0 0 addr.toNat
  | .jne addr => wordOf 11 0 0 addr.toNat
  | .push reg => wordOf 12 reg.bit 0 0
  | .pop reg => wordOf 13 reg.bit 0 0
  | .call addr => wordOf 14 0 0 addr.toNat
  | .ret => wordOf 15 0 0 0
  | .alloc reg size => wordOf 16 reg.bit 0 size.toNat
  | .forLoop reg count => wordOf 17 reg.bit 0 count.toNat
  | .endFor => wordOf 18 0 0 0

/-- A decoded cell as an instruction, none for the two rejections. -/
def Decoded.instr? : Decoded → Option Instr
  | .valid i => some i
  | .unknown => none
  | .malformed => none

/-- The host's question: the instruction the decoder reads from the low `nbits` bits of `w`, laid out as one instruction
cell. No instruction is longer than 16 bits (R90). -/
def decodeTableWord (nbits w : Nat) : Option Instr :=
  if nbits ≤ 16 then (decode (Cell.instr (BitVec.ofNat 16 (w % 2 ^ nbits)))).instr? else none

end Sys2Proof
end

