-- ==== Sys2Proof/Machine/State.lean ====
section
/-! DEFINITION. Machine/State.lean: every piece of state spec/10_state.md gives the prog-vi CORE, as plain data, the
outcomes a step can have, and the state after power-on reset (R42). -/

namespace Sys2Proof.Machine

/-- Why the machine stops. The hardware has no fatal error (R260): a diagnostic is a next state, never a fault. -/
inductive Fault where
  /-- Raised by `step` and `tick` when the Fetch stage would read an address outside 0..N-1. R65 and R43 say it happens in
  no reachable state, so only a state that breaks R43's invariant meets it. Safe: the machine stops where the spec says
  nothing. -/
  | fetchOutOfBounds
  deriving DecidableEq, Repr

/-- An instruction without a meaning. -/
inductive Refusal where
  /-- Raised by an arm of `exec` whose instruction is not modelled yet. No arm raises it. Safe. -/
  | notModelled (mnemonic : String)
  deriving DecidableEq, Repr

/-- The four diagnostics (R260). -/
inductive Diag where
  /-- address outside `[0, N)` (R264) -/
  | outOfBounds
  /-- a data byte or an unused opcode was fetched (R265) -/
  | unknownOpcode
  /-- reserved bits set, or an instruction word read as data (R266) -/
  | malformedOperand
  /-- ENDFOR with no loop frame (R267) -/
  | loopStackUnderflow
  deriving DecidableEq, Repr

/-- A loop frame: the address of the FOR that pushed it and the counter register it named (R28). -/
structure LoopFrame where
  start : Byte
  reg : Reg
  deriving DecidableEq, Repr

/-- What an instruction may do to the loop stack (R28). -/
inductive LoopOp where
  | push (f : LoopFrame)
  | pop
  deriving DecidableEq, Repr

/-- MEM (R31, R60): the cells that differ from what an unlisted address holds, by rising address. Its canonical form is
`Memory.wf` in Machine/Memory.lean. -/
abbrev Memory := List (Nat × Cell)

/-- PROP, the proposed writes of one instruction (R35): at most one register, ZF, SP, HP, one cell, one push or pop of LS;
the next PC; the ALU result the Execute edge latches (R221); the diagnostic. `none` proposes no write. -/
structure Proposal where
  reg : Option (Reg × Byte)
  zf : Option Bool
  pc : Byte
  sp : Option (BitVec 9)
  hp : Option (BitVec 16)
  cell : Option (Nat × Byte)
  loop : Option LoopOp
  alu : Option Byte
  diag : Option Diag
  deriving DecidableEq, Repr

/-- STAGE (R32) with the two latches the spec gives content only while a step is in flight: DEC (R34), written at the end of
Decode, and PROP (R35), written at the end of Execute. Their content elsewhere is unspecified and nothing reads it, so
there is none here (log entry 3). -/
inductive Stage where
  | idle
  | fetch
  | decode
  | execute (dec : Decoded)
  | writeBack (dec : Decoded) (prop : Proposal)
  deriving DecidableEq, Repr

/-- ALUOUT: a valid bit and the last ALU result (R36). -/
structure AluOut where
  valid : Bool
  value : Byte
  deriving DecidableEq, Repr

/-- The state of the CORE (R20): first the architectural state, then the sequencer and display state. -/
structure State where
  /-- MEM (R31) -/
  mem : Memory
  /-- R1 (R21) -/
  r1 : Byte
  /-- R2 (R21) -/
  r2 : Byte
  /-- ZF, written by CMP only (R24) -/
  zf : Bool
  /-- PC (R23) -/
  pc : Byte
  /-- SP, two's complement, reachable -1..N-1 (R25) -/
  sp : BitVec 9
  /-- HP (R26) -/
  hp : BitVec 16
  /-- LS, the top frame first (R28) -/
  ls : List LoopFrame
  /-- IC, the length of the loaded program (R29) -/
  ic : BitVec 5
  /-- N, the number of cells (R30) -/
  n : BitVec 9
  /-- STAGE with DEC and PROP (R32, R34, R35) -/
  stage : Stage
  /-- IR (R33) -/
  ir : Cell
  /-- ALUOUT (R36) -/
  aluOut : AluOut
  /-- DIAG (R37) -/
  diag : BitVec 3
  /-- DIAGLOG (R38) -/
  diagLog : BitVec 4
  /-- RUN (R39) -/
  run : Bool
  /-- IDLECNT (R40) -/
  idleCnt : Nat
  deriving DecidableEq, Repr

/-- After power-on reset: the power-on column of R42 (R300). Memory lists nothing: every cell is `Byte(0)`. -/
def State.reset : State where
  mem := []
  r1 := 0
  r2 := 0
  zf := false
  pc := 0
  sp := 31
  hp := 16
  ls := []
  ic := 0
  n := 32
  stage := .idle
  ir := { tag := false, payload := 0 }
  aluOut := { valid := false, value := 0 }
  diag := 0
  diagLog := 0
  run := false
  idleCnt := 0

end Sys2Proof.Machine
end

