-- ==== Sys2Proof/Machine/Memory.lean ====
section
/-! DEFINITION. Machine/Memory.lean: the cell array MEM as a canonical list (spec/20_memory.md R60, R61, R68). -/

namespace Sys2Proof.Machine

/-- What an address holds that the list does not name: `Byte(0)`, the reset content of every cell (R42). -/
def Memory.unlisted : Cell := Cell.byte 0

/-- The cell at an address. -/
def Memory.read : Memory → Nat → Cell
  | [], _ => Memory.unlisted
  | (b, d) :: m, a => if a = b then d else Memory.read m a

/-- Put an entry in front, unless it says what an unlisted address holds anyway. -/
def Memory.consCell (a : Nat) (c : Cell) (m : Memory) : Memory := if c = Memory.unlisted then m else (a, c) :: m

/-- Replace the whole cell at an address, keeping the canonical form (R68). -/
def Memory.write : Memory → Nat → Cell → Memory
  | [], a, c => Memory.consCell a c []
  | (b, d) :: m, a, c =>
    if a < b then Memory.consCell a c ((b, d) :: m)
    else if a = b then Memory.consCell a c m
    else (b, d) :: Memory.write m a c

/-- Write instruction words at successive addresses, the load port's `MEM[i] <- Instr(w_i)` (R79). -/
def Memory.writeWords (m : Memory) (a : Nat) : List Word → Memory
  | [] => m
  | w :: ws => Memory.writeWords (Memory.write m a (Cell.instr w)) (a + 1) ws

/-- The canonical form: addresses strictly rising and no entry equal to what an unlisted address holds. -/
abbrev Memory.wf (m : Memory) : Prop := m.Pairwise (fun x y => x.1 < y.1) ∧ ∀ e ∈ m, e.2 ≠ Memory.unlisted

end Sys2Proof.Machine
end

