-- ==== Sys2Proof/Machine/Ops.lean ====
section
/-! DEFINITION. Machine/Ops.lean: the pseudocode primitives of spec/00_scope.md R7 over the state, raising a diagnostic
(spec/60_exceptions.md R262), and the edges at which the sequencer writes state (spec/50_pipeline_run_control.md R219 to
R222). -/

namespace Sys2Proof.Machine

/-- `x[i]` (R7). -/
def State.reg (s : State) : Reg → Byte
  | .r1 => s.r1
  | .r2 => s.r2

/-- `(pc + 1) mod 256` (R23). -/
def pcNext (pc : Byte) : Byte := pc + 1

/-- `CellRead(a)`: OutOfBounds when the integer a is below 0 or at or above N (R7, R65). -/
def State.cellRead (s : State) (a : Int) : Except Diag Cell :=
  if a < 0 ∨ (s.n.toNat : Int) ≤ a then .error .outOfBounds else .ok (s.mem.read a.toNat)

/-- `MemRead(a, 1)`: a byte; an instruction word found there is a malformed operand (R7, R66). -/
def State.memRead (s : State) (a : Int) : Except Diag Byte :=
  match s.cellRead a with
  | .error d => .error d
  | .ok c => if c.tag then .error .malformedOperand else .ok c.data

/-- The bounds check of `MemWrite(a, 1, v)`: the address to propose a write to (R7, R65). The write itself waits for
WriteBack. -/
def State.writeAddr (s : State) (a : Int) : Except Diag Nat :=
  if a < 0 ∨ (s.n.toNat : Int) ≤ a then .error .outOfBounds else .ok a.toNat

/-- The proposal of an instruction that assigns nothing: only `pc <- (pc + 1) mod 256` (R7, R23). -/
def Proposal.advance (pc : Byte) : Proposal where
  reg := none
  zf := none
  pc := pcNext pc
  sp := none
  hp := none
  cell := none
  loop := none
  alu := none
  diag := none

/-- Raising a diagnostic: every proposed write is dropped, a jump target too; only `pc <- pc + 1` and the diagnostic remain
(R262). There is no trap entry beyond this and no return from one (R271, R272). -/
def Proposal.raise (d : Diag) (pc : Byte) : Proposal := { Proposal.advance pc with diag := some d }

/-- Go on with the value an access gives, or raise the diagnostic it raises (R7: "the instruction stops"). -/
def attempt {α : Type} (r : Except Diag α) (pc : Byte) (k : α → Proposal) : Proposal :=
  match r with
  | .error d => .raise d pc
  | .ok v => k v

/-- The DIAG code of a diagnostic (R261). -/
def Diag.code : Diag → BitVec 3
  | .outOfBounds => 1
  | .unknownOpcode => 2
  | .malformedOperand => 3
  | .loopStackUnderflow => 4

/-- The DIAGLOG bit of a diagnostic, as a mask (R38, R261). -/
def Diag.logBit : Diag → BitVec 4
  | .outOfBounds => 1
  | .unknownOpcode => 2
  | .malformedOperand => 4
  | .loopStackUnderflow => 8

/-- The code a finished step leaves in DIAG: 0 when it raised nothing (R263). -/
def diagCode : Option Diag → BitVec 3
  | none => 0
  | some d => d.code

/-- The bits a finished step adds to DIAGLOG (R263). -/
def diagLogBits : Option Diag → BitVec 4
  | none => 0
  | some d => d.logBit

/-- A register after a proposed register write. -/
def regAfter (r : Reg) (old : Byte) : Option (Reg × Byte) → Byte
  | none => old
  | some (d, v) => if d = r then v else old

/-- Memory after a proposed cell write: the whole cell becomes `Byte(v)` (R68). -/
def memAfter (m : Memory) : Option (Nat × Byte) → Memory
  | none => m
  | some (a, v) => m.write a (Cell.byte v)

/-- The loop stack after a proposed push or pop (R28). -/
def loopAfter (ls : List LoopFrame) : Option LoopOp → List LoopFrame
  | none => ls
  | some (.push f) => f :: ls
  | some .pop => ls.tail

/-- ALUOUT after the closing edge of Execute: the result when there is one, else kept (R36, R221). -/
def aluAfter (old : AluOut) : Option Byte → AluOut
  | none => old
  | some v => { valid := true, value := v }

/-- The closing edge of Fetch: `IR <- MEM[pc]` (R219); none when pc is outside memory. -/
def State.latchIr (s : State) : Option State :=
  match s.cellRead s.pc.toNat with
  | .error _ => none
  | .ok c => some { s with ir := c }

/-- ALUOUT's part of the closing edge of Execute (R221). -/
def State.latchAlu (s : State) (p : Proposal) : State := { s with aluOut := aluAfter s.aluOut p.alu }

/-- The closing edge of WriteBack: every proposed write, the new PC, DIAG and DIAGLOG together, back to Idle (R222). -/
def State.commit (s : State) (p : Proposal) : State :=
  { s with
    mem := memAfter s.mem p.cell
    r1 := regAfter .r1 s.r1 p.reg
    r2 := regAfter .r2 s.r2 p.reg
    zf := p.zf.getD s.zf
    pc := p.pc
    sp := p.sp.getD s.sp
    hp := p.hp.getD s.hp
    ls := loopAfter s.ls p.loop
    stage := .idle
    diag := diagCode p.diag
    diagLog := s.diagLog ||| diagLogBits p.diag }

/-- The closing edges of Execute and WriteBack taken together: what an instruction's outcome does to the state (R216). -/
def State.retire (s : State) (p : Proposal) : State := (s.latchAlu p).commit p

end Sys2Proof.Machine
end

