-- ==== Sys2Proof/Machine/Operands.lean ====
section
/-! DEFINITION. Machine/Operands.lean: every way an instruction names a place or a value (spec/20_memory.md R69,
spec/30_encoding.md R101, spec/44_stack_heap.md R185). -/

namespace Sys2Proof.Machine

/-- The one addressing mode of LOAD and STORE: the 8-bit immediate as an integer (R101, R130). -/
def absAddr (imm : Byte) : Int := (imm.toNat : Int)

/-- Where PUSH and CALL write: SP, the next free cell, as a signed integer (R25, R185). -/
def State.pushAddr (s : State) : Int := s.sp.toInt

/-- Where POP and RET read: SP + 1 (R185). -/
def State.popAddr (s : State) : Int := s.sp.toInt + 1

/-- SP after a push (R180). -/
def State.spPushed (s : State) : BitVec 9 := s.sp - 1

/-- SP after a pop (R181). -/
def State.spPopped (s : State) : BitVec 9 := s.sp + 1

/-- The byte ALLOC hands out: HP[7:0] (R184). -/
def State.heapByte (s : State) : Byte := s.hp.extractLsb' 0 8

/-- HP after ALLOC: `(HP + zext_16(size)) mod 65536` (R184). -/
def State.hpAfter (s : State) (size : Byte) : BitVec 16 := s.hp + size.setWidth 16

/-- A jump target: the immediate is the address itself, with no offset and no scaling (R101, R172). -/
def jumpTarget (imm : Byte) : Byte := imm

/-- Where ENDFOR jumps back to: the cell after the frame's FOR (R201). -/
def LoopFrame.bodyAddr (f : LoopFrame) : Byte := f.start + 1

end Sys2Proof.Machine
end

