-- ==== Sys2Proof/Machine/Alu.lean ====
section
/-! DEFINITION. Machine/Alu.lean: ADD, SUB, AND, OR, XOR (spec/41_alu.md). Arithmetic wraps modulo 256 and no flag is
written (R140, R141). -/

namespace Sys2Proof.Machine

/-- The common shape of the family: the result goes to dst and to ALUOUT (R140). -/
def aluOutcome (dst : Reg) (r : Byte) (s : State) : Proposal :=
  { Proposal.advance s.pc with reg := some (dst, r), alu := some r }

/-- ADD's pseudocode, modulo 256 (R142). -/
def addOutcome (dst src : Reg) (s : State) : Proposal := aluOutcome dst (s.reg dst + s.reg src) s

/-- ADD (R142). -/
def execAdd (dst src : Reg) (s : State) : Host.Outcome State Fault Refusal :=
  .next (s.retire (addOutcome dst src s))

/-- SUB's pseudocode, modulo 256 (R143). -/
def subOutcome (dst src : Reg) (s : State) : Proposal := aluOutcome dst (s.reg dst - s.reg src) s

/-- SUB (R143). -/
def execSub (dst src : Reg) (s : State) : Host.Outcome State Fault Refusal :=
  .next (s.retire (subOutcome dst src s))

/-- AND's pseudocode, bit by bit (R144). -/
def andOutcome (dst src : Reg) (s : State) : Proposal := aluOutcome dst (s.reg dst &&& s.reg src) s

/-- AND (R144). -/
def execAnd (dst src : Reg) (s : State) : Host.Outcome State Fault Refusal :=
  .next (s.retire (andOutcome dst src s))

/-- OR's pseudocode, bit by bit (R145). -/
def orOutcome (dst src : Reg) (s : State) : Proposal := aluOutcome dst (s.reg dst ||| s.reg src) s

/-- OR (R145). -/
def execOr (dst src : Reg) (s : State) : Host.Outcome State Fault Refusal :=
  .next (s.retire (orOutcome dst src s))

/-- XOR's pseudocode, bit by bit (R146). -/
def xorOutcome (dst src : Reg) (s : State) : Proposal := aluOutcome dst (s.reg dst ^^^ s.reg src) s

/-- XOR (R146). -/
def execXor (dst src : Reg) (s : State) : Host.Outcome State Fault Refusal :=
  .next (s.retire (xorOutcome dst src s))

end Sys2Proof.Machine
end

