-- ==== Sys2Proof/Machine/Jumps.lean ====
section
/-! DEFINITION. Machine/Jumps.lean: JE and JNE (spec/43_jumps.md). A jump raises no diagnostic whatever its target (R172). -/

namespace Sys2Proof.Machine

/-- A conditional transfer: to the target when it is taken, else on to `pc + 1` (R172). -/
def jumpOutcome (taken : Bool) (addr : Byte) (s : State) : Proposal :=
  if taken then { Proposal.advance s.pc with pc := jumpTarget addr } else Proposal.advance s.pc

/-- JE's pseudocode (R170). -/
def jeOutcome (addr : Byte) (s : State) : Proposal := jumpOutcome s.zf addr s

/-- JE (R170). -/
def execJe (addr : Byte) (s : State) : Host.Outcome State Fault Refusal := .next (s.retire (jeOutcome addr s))

/-- JNE's pseudocode (R171). -/
def jneOutcome (addr : Byte) (s : State) : Proposal := jumpOutcome (!s.zf) addr s

/-- JNE (R171). -/
def execJne (addr : Byte) (s : State) : Host.Outcome State Fault Refusal := .next (s.retire (jneOutcome addr s))

end Sys2Proof.Machine
end

