-- ==== Sys2Proof/Machine/LoadStore.lean ====
section
/-! DEFINITION. Machine/LoadStore.lean: LOAD and STORE (spec/40_load_store.md). For each instruction, its outcome (the
proposal Execute makes) and its meaning (that outcome retired). -/

namespace Sys2Proof.Machine

/-- LOAD's pseudocode (R130). -/
def loadOutcome (dst : Reg) (addr : Byte) (s : State) : Proposal :=
  attempt (s.memRead (absAddr addr)) s.pc fun v => { Proposal.advance s.pc with reg := some (dst, v) }

/-- LOAD (R130). -/
def execLoad (dst : Reg) (addr : Byte) (s : State) : Host.Outcome State Fault Refusal :=
  .next (s.retire (loadOutcome dst addr s))

/-- STORE's pseudocode (R131). -/
def storeOutcome (addr : Byte) (src : Reg) (s : State) : Proposal :=
  attempt (s.writeAddr (absAddr addr)) s.pc fun a => { Proposal.advance s.pc with cell := some (a, s.reg src) }

/-- STORE (R131). -/
def execStore (addr : Byte) (src : Reg) (s : State) : Host.Outcome State Fault Refusal :=
  .next (s.retire (storeOutcome addr src s))

end Sys2Proof.Machine
end

