-- ==== Sys2Proof/Config.lean ====
section
/-! DEFINITION. Config.lean: the parameters of the prog-vi CORE that spec/00_scope.md R5 marks *model argument* and
that are not run-time state (N is: it stands in `State`). The hardware leaves no value free, so there is no free value
here (spec/50_pipeline_run_control.md R237). -/

namespace Sys2Proof

/-- The two model arguments of R5. `tick` takes them as an argument, so that statements quantify over them. -/
structure Config where
  /-- RUN_INTERVAL: Idle ticks between two steps of a continuous run (R236). -/
  runInterval : Nat
  /-- ENDFOR_ZERO_WRAPS: whether ENDFOR tests the 8-bit wrapped result (R201). -/
  endForZeroWraps : Bool
  deriving DecidableEq, Repr

/-- The values R5's table gives this hardware: RUN_INTERVAL 0 and ENDFOR_ZERO_WRAPS false.
`exec` and `step`, whose types leave no room for an argument, take these (log entry 7). -/
def Config.hardware : Config := { runInterval := 0, endForZeroWraps := false }

end Sys2Proof
end

