-- ==== Sys2Proof/Machine/Flags.lean ====
section
/-! DEFINITION. Machine/Flags.lean: the one flag, ZF, and the tests the instructions make (spec/10_state.md R24,
spec/45_loops.md R201). -/

namespace Sys2Proof.Machine

/-- What CMP writes to ZF: 1 iff the two bytes are equal (R24, R161). -/
def equalFlag (a b : Byte) : Bool := decide (a = b)

/-- The counter ENDFOR stores: `(v - 1) mod 256` (R201). -/
def counterDown (v : Byte) : Byte := v - 1

/-- Whether ENDFOR jumps back: on the stored byte with ENDFOR_ZERO_WRAPS, on the integer `v - 1` without (R201). -/
def loopAgain (c : Config) (v : Byte) : Bool :=
  if c.endForZeroWraps then decide (0 < (counterDown v).toNat) else decide (0 < (v.toNat : Int) - 1)

end Sys2Proof.Machine
end

