-- ==== Sys2Proof/Machine/Loops.lean ====
section
/-! DEFINITION. Machine/Loops.lean: FOR and ENDFOR (spec/45_loops.md). They meet only through the loop stack (R202). -/

namespace Sys2Proof.Machine

/-- FOR's pseudocode: the frame saves the address of the FOR itself (R200). -/
def forOutcome (reg : Reg) (count : Byte) (s : State) : Proposal :=
  { Proposal.advance s.pc with reg := some (reg, count), loop := some (.push { start := s.pc, reg := reg }) }

/-- FOR (R200). -/
def execFor (reg : Reg) (count : Byte) (s : State) : Host.Outcome State Fault Refusal :=
  .next (s.retire (forOutcome reg count s))

/-- ENDFOR's pseudocode, for either value of ENDFOR_ZERO_WRAPS (R201). -/
def endForOutcome (c : Config) (s : State) : Proposal :=
  match s.ls with
  | [] => Proposal.raise .loopStackUnderflow s.pc
  | f :: _ =>
    let v := s.reg f.reg
    let p := { Proposal.advance s.pc with reg := some (f.reg, counterDown v) }
    if loopAgain c v then { p with pc := f.bodyAddr } else { p with loop := some .pop }

/-- ENDFOR with the parameter value R5 gives this hardware (R201). -/
def execEndFor (s : State) : Host.Outcome State Fault Refusal := .next (s.retire (endForOutcome Config.hardware s))

end Sys2Proof.Machine
end

