-- ==== Sys2Proof/Machine/MovCmp.lean ====
section
/-! DEFINITION. Machine/MovCmp.lean: MOV and CMP (spec/42_mov_cmp.md). -/

namespace Sys2Proof.Machine

/-- MOV's pseudocode (R160). -/
def movOutcome (dst : Reg) (literal : Byte) (s : State) : Proposal :=
  { Proposal.advance s.pc with reg := some (dst, literal) }

/-- MOV (R160). -/
def execMov (dst : Reg) (literal : Byte) (s : State) : Host.Outcome State Fault Refusal :=
  .next (s.retire (movOutcome dst literal s))

/-- CMP's pseudocode (R161). -/
def cmpOutcome (a b : Reg) (s : State) : Proposal :=
  { Proposal.advance s.pc with zf := some (equalFlag (s.reg a) (s.reg b)) }

/-- CMP (R161). -/
def execCmp (a b : Reg) (s : State) : Host.Outcome State Fault Refusal := .next (s.retire (cmpOutcome a b s))

end Sys2Proof.Machine
end

