-- ==== Sys2Proof/Machine/StackHeap.lean ====
section
/-! DEFINITION. Machine/StackHeap.lean: PUSH, POP, CALL, RET, ALLOC (spec/44_stack_heap.md). The stack is
empty-descending: a push writes at SP and then decrements, a pop increments and then reads (R185). -/

namespace Sys2Proof.Machine

/-- The common part of PUSH and CALL: propose a byte at SP, the decremented SP and the next PC (R185). -/
def pushByte (v next : Byte) (s : State) : Proposal :=
  attempt (s.writeAddr s.pushAddr) s.pc fun a =>
    { Proposal.advance s.pc with cell := some (a, v), sp := some s.spPushed, pc := next }

/-- The common part of POP and RET: the byte above SP, handed on with the incremented SP proposed (R185). -/
def popThen (s : State) (k : Byte → Proposal → Proposal) : Proposal :=
  attempt (s.memRead s.popAddr) s.pc fun v => k v { Proposal.advance s.pc with sp := some s.spPopped }

/-- PUSH's pseudocode (R180). -/
def pushOutcome (reg : Reg) (s : State) : Proposal := pushByte (s.reg reg) (pcNext s.pc) s

/-- PUSH (R180). -/
def execPush (reg : Reg) (s : State) : Host.Outcome State Fault Refusal := .next (s.retire (pushOutcome reg s))

/-- POP's pseudocode (R181). -/
def popOutcome (reg : Reg) (s : State) : Proposal := popThen s fun v p => { p with reg := some (reg, v) }

/-- POP (R181). -/
def execPop (reg : Reg) (s : State) : Host.Outcome State Fault Refusal := .next (s.retire (popOutcome reg s))

/-- CALL's pseudocode: the return address is `(pc + 1) mod 256`; when the push raises, the jump is not taken (R182). -/
def callOutcome (addr : Byte) (s : State) : Proposal := pushByte (pcNext s.pc) (jumpTarget addr) s

/-- CALL (R182). -/
def execCall (addr : Byte) (s : State) : Host.Outcome State Fault Refusal := .next (s.retire (callOutcome addr s))

/-- RET's pseudocode (R183). -/
def retOutcome (s : State) : Proposal := popThen s fun v p => { p with pc := v }

/-- RET (R183). -/
def execRet (s : State) : Host.Outcome State Fault Refusal := .next (s.retire (retOutcome s))

/-- ALLOC's pseudocode: no check against SP or N (R184). -/
def allocOutcome (reg : Reg) (size : Byte) (s : State) : Proposal :=
  { Proposal.advance s.pc with reg := some (reg, s.heapByte), hp := some (s.hpAfter size) }

/-- ALLOC (R184). -/
def execAlloc (reg : Reg) (size : Byte) (s : State) : Host.Outcome State Fault Refusal :=
  .next (s.retire (allocOutcome reg size s))

end Sys2Proof.Machine
end

