-- ==== Sys2Proof/Machine/Dispatch.lean ====
section
/-! DEFINITION. Machine/Dispatch.lean: one arm per instruction, each a direct call of its meaning. -/

namespace Sys2Proof.Machine

def exec (i : Instr) (s : State) : Host.Outcome State Fault Refusal :=
  match i with
  | .load dst addr => Sys2Proof.Machine.execLoad dst addr s
  | .store addr src => Sys2Proof.Machine.execStore addr src s
  | .add dst src => Sys2Proof.Machine.execAdd dst src s
  | .sub dst src => Sys2Proof.Machine.execSub dst src s
  | .and dst src => Sys2Proof.Machine.execAnd dst src s
  | .or dst src => Sys2Proof.Machine.execOr dst src s
  | .xor dst src => Sys2Proof.Machine.execXor dst src s
  | .mov dst literal => Sys2Proof.Machine.execMov dst literal s
  | .cmp a b => Sys2Proof.Machine.execCmp a b s
  | .je addr => Sys2Proof.Machine.execJe addr s
  | .jne addr => Sys2Proof.Machine.execJne addr s
  | .push reg => Sys2Proof.Machine.execPush reg s
  | .pop reg => Sys2Proof.Machine.execPop reg s
  | .call addr => Sys2Proof.Machine.execCall addr s
  | .ret => Sys2Proof.Machine.execRet s
  | .alloc reg size => Sys2Proof.Machine.execAlloc reg size s
  | .forLoop reg count => Sys2Proof.Machine.execFor reg count s
  | .endFor => Sys2Proof.Machine.execEndFor s

end Sys2Proof.Machine
end

