-- ==== Sys2Proof/Machine/Execute.lean ====
section
/-! DEFINITION. Machine/Execute.lean: the Execute stage (spec/50_pipeline_run_control.md R216, R221): the outcome of
whatever DEC holds, with the model arguments of R5 as an argument. `exec` retires the same outcomes at the hardware's
parameter values. -/

namespace Sys2Proof.Machine

/-- The proposal of an instruction (R216, `case d of`). -/
def instrOutcome (c : Config) (i : Instr) (s : State) : Proposal :=
  match i with
  | .load dst addr => loadOutcome dst addr s
  | .store addr src => storeOutcome addr src s
  | .add dst src => addOutcome dst src s
  | .sub dst src => subOutcome dst src s
  | .and dst src => andOutcome dst src s
  | .or dst src => orOutcome dst src s
  | .xor dst src => xorOutcome dst src s
  | .mov dst literal => movOutcome dst literal s
  | .cmp a b => cmpOutcome a b s
  | .je addr => jeOutcome addr s
  | .jne addr => jneOutcome addr s
  | .push reg => pushOutcome reg s
  | .pop reg => popOutcome reg s
  | .call addr => callOutcome addr s
  | .ret => retOutcome s
  | .alloc reg size => allocOutcome reg size s
  | .forLoop reg count => forOutcome reg count s
  | .endFor => endForOutcome c s

/-- The proposal of what was decoded: a rejected word raises its diagnostic (R98, R99, R216). -/
def decodedOutcome (c : Config) (d : Decoded) (s : State) : Proposal :=
  match d with
  | .unknown => Proposal.raise .unknownOpcode s.pc
  | .malformed => Proposal.raise .malformedOperand s.pc
  | .valid i => instrOutcome c i s

/-- Execute and WriteBack of what was decoded, as one move (R216). -/
def runDecoded (d : Decoded) (s : State) : Host.Outcome State Fault Refusal :=
  match d with
  | .unknown => .next (s.retire (Proposal.raise .unknownOpcode s.pc))
  | .malformed => .next (s.retire (Proposal.raise .malformedOperand s.pc))
  | .valid i => exec i s

end Sys2Proof.Machine
end

