-- ==== Sys2Proof/Machine/RunControl.lean ====
section
/-! DEFINITION. Machine/RunControl.lean: the halted condition, the host's `resize` and `load`, and the instruction-level
function (spec/50_pipeline_run_control.md R216, R233; spec/70_reset_and_hazards.md R301, R302). -/

namespace Sys2Proof.Machine

/-- `pc < IC`: the gate of every grant (R233). -/
def State.inProgram (s : State) : Bool := decide (s.pc.toNat < s.ic.toNat)

/-- The derived signal `halted`: STAGE = Idle and `pc ≥ IC` (R233). -/
def State.halted (s : State) : Bool := decide (s.stage = .idle) && !s.inProgram

/-- HP after a resetting event: `min(16, N)` (R42, C1). -/
def heapBase (n : BitVec 9) : BitVec 16 := BitVec.ofNat 16 (min 16 n.toNat)

/-- `resize(n)` for a legal n: the resize column of R42 (R301). -/
def State.resize (n : BitVec 9) : State :=
  { State.reset with n := n, sp := n - 1, hp := heapBase n }

/-- `load(w_0..w_{k-1})`: the load column of R42 (R302). Words beyond the sixteenth are dropped (R241, cmd_count). -/
def State.load (s : State) (ws : List Word) : State :=
  { s with
    mem := s.mem.writeWords 0 (ws.take 16)
    pc := 0
    sp := s.n - 1
    hp := heapBase s.n
    ls := []
    ic := BitVec.ofNat 5 (ws.take 16).length
    stage := .idle
    ir := { tag := false, payload := 0 }
    aluOut := { valid := false, value := 0 }
    diag := 0
    diagLog := 0
    run := false
    idleCnt := 0 }

/-- What a tick does in Idle when the CORE is halted: RUN is cleared, nothing else (R233, R243). -/
def State.haltedTick (s : State) : State := { s with run := false }

/-- Fetch, Decode, Execute and WriteBack of the instruction at pc (R216). -/
def fetchAndRun (s : State) : Host.Outcome State Fault Refusal :=
  match s.latchIr with
  | none => .fault .fetchOutOfBounds
  | some t => runDecoded (decode t.ir) t

/-- The host gives `step` and waits until the CORE is back in Idle (R231, R240): a whole instruction when one is granted,
a cleared RUN when the CORE is halted, the rest of the step when one is in flight (log entries 4 and 5). -/
def stepOnce (s : State) : Host.Outcome State Fault Refusal :=
  match s.stage with
  | .idle => if s.inProgram then fetchAndRun s else .next s.haltedTick
  | .fetch => fetchAndRun s
  | .decode => runDecoded (decode s.ir) s
  | .execute d => runDecoded d s
  | .writeBack _ p => .next (s.commit p)

/-- Where the next instruction is fetched: pc, or 0 for a pc no program reaches (R64). -/
def State.fetchPc (s : State) : Byte := if s.inProgram ∨ s.pc.toNat < 16 then s.pc else 0

/-- The state with one instruction word placed where the next step fetches, and a program long enough that the step is
granted: the host's `load` of R302 for that one word, everything else kept (log entry 10). -/
def State.placeWord (s : State) (w : Word) : State :=
  { s with
    mem := s.mem.write s.fetchPc.toNat (Cell.instr w)
    pc := s.fetchPc
    ic := if s.inProgram then s.ic else BitVec.ofNat 5 (s.fetchPc.toNat + 1)
    stage := .idle }

end Sys2Proof.Machine
end

