-- ==== Sys2Proof/Machine/Assembler.lean ====
section
/-! DEFINITION. Machine/Assembler.lean: the text form (spec/30_encoding.md R104 to R112): lines, tokens, operands, the
assembler from a line to a word, and the disassembler. A text is a list of ASCII characters. -/

namespace Sys2Proof.Machine

/-- ASCII white space: space, tab, line feed, vertical tab, form feed, carriage return (log entry 15). -/
def isSpace (c : Char) : Bool := c = ' ' || (9 ≤ c.toNat && c.toNat ≤ 13)

/-- Cut a list at every element that satisfies `p`; the separators are dropped. -/
def splitAtAll (p : Char → Bool) : List Char → List (List Char)
  | [] => [[]]
  | c :: cs =>
    if p c then [] :: splitAtAll p cs
    else
      match splitAtAll p cs with
      | [] => [[c]]
      | t :: ts => (c :: t) :: ts

/-- The tokens of a line: the pieces between white space (R106). -/
def tokensOf (line : List Char) : List (List Char) := (splitAtAll isSpace line).filter (fun t => !t.isEmpty)

/-- The non-empty lines of a text, each as its tokens (R105). A line that is empty when trimmed has no token. -/
def linesOf (text : List Char) : List (List (List Char)) :=
  ((splitAtAll (fun c => c = '\n') text).map tokensOf).filter (fun ts => !ts.isEmpty)

/-- What an operand position gives: a field value, a non-numeric token where a number is required, or a refusal
(R108 to R110). -/
inductive FieldResult where
  | value (n : Nat)
  | nonNumeric
  | refused
  deriving DecidableEq, Repr

/-- What a line assembles to: a word, or nothing because the line is refused (R111). -/
inductive AsmResult where
  | word (w : Word)
  | refused
  deriving DecidableEq, Repr

/-- A register position: `R1` or `R2`; anything else, a missing token too, is refused (R108). -/
def regToken : Option (List Char) → FieldResult
  | some ['R', '1'] => .value 0
  | some ['R', '2'] => .value 1
  | _ => .refused

/-- `0`..`9`. -/
def isDigit (c : Char) : Bool := 48 ≤ c.toNat && c.toNat ≤ 57

/-- The value of a decimal numeral. -/
def decimalValue (t : List Char) : Nat := t.foldl (fun acc c => 10 * acc + (c.toNat - 48)) 0

/-- A number position: a decimal numeral up to 255; non-numeric when the first character is no digit and no sign; else
refused (R109). -/
def numToken : Option (List Char) → FieldResult
  | none => .refused
  | some [] => .refused
  | some (c :: cs) =>
    if (c :: cs).all isDigit then
      if decimalValue (c :: cs) ≤ 255 then .value (decimalValue (c :: cs)) else .refused
    else if isDigit c || c = '+' || c = '-' then .refused
    else .nonNumeric

/-- `0` or `1`. -/
def isBit (c : Char) : Bool := c = '0' || c = '1'

/-- The value of a binary numeral, most significant digit first. -/
def binaryValue (t : List Char) : Nat := t.foldl (fun acc c => 2 * acc + (if c = '1' then 1 else 0)) 0

/-- The MOV literal: exactly eight binary digits (R110). -/
def literalToken : Option (List Char) → FieldResult
  | none => .refused
  | some t => if t.length = 8 ∧ t.all isBit then .value (binaryValue t) else .refused

/-- The operand positions of a mnemonic, in text order (R97, R111). -/
inductive OperandShape where
  | regNum
  | numReg
  | regReg
  | regLiteral
  | num
  | reg
  | nothing
  deriving DecidableEq, Repr

/-- The 18 mnemonics with their opcode and operand positions (R97, R107). -/
def mnemonicRows : List (List Char × Nat × OperandShape) :=
  [("LOAD".toList, 1, .regNum), ("STORE".toList, 2, .numReg), ("ADD".toList, 3, .regReg),
   ("SUB".toList, 4, .regReg), ("AND".toList, 5, .regReg), ("OR".toList, 6, .regReg)] ++
  [("XOR".toList, 7, .regReg), ("MOV".toList, 8, .regLiteral), ("CMP".toList, 9, .regReg),
   ("JE".toList, 10, .num), ("JNE".toList, 11, .num), ("PUSH".toList, 12, .reg)] ++
  [("POP".toList, 13, .reg), ("CALL".toList, 14, .num), ("RET".toList, 15, .nothing),
   ("ALLOC".toList, 16, .regNum), ("FOR".toList, 17, .regNum), ("ENDFOR".toList, 18, .nothing)]

/-- The row of a mnemonic, matched exactly and case-sensitively (R107). -/
def mnemonicRow (t : List Char) : Option (Nat × OperandShape) := (mnemonicRows.find? (fun r => r.1 = t)).map (·.2)

/-- A field's value; only asked of fields that have one. -/
def FieldResult.val : FieldResult → Nat
  | .value n => n
  | .nonNumeric => 0
  | .refused => 0

/-- Put the fields together: a refused one refuses the line, a non-numeric one gives the malformed word `(op << 11) | 0x07FF`
(R102, R111). -/
def assembleFields (op : Nat) (ra rb imm : FieldResult) : AsmResult :=
  if ra = .refused ∨ rb = .refused ∨ imm = .refused then .refused
  else if imm = .nonNumeric then .word (BitVec.ofNat 16 (op <<< 11 ||| 0x07FF))
  else .word (wordOf op ra.val rb.val imm.val)

/-- The tokens of a non-empty line to its word. An unknown mnemonic is the word 0x0000; tokens beyond those the mnemonic uses
are ignored (R102, R106, R111). -/
def asmTokens : List (List Char) → AsmResult
  | [] => .refused
  | m :: ops =>
    match mnemonicRow m with
    | none => .word 0
    | some (op, shape) =>
      match shape with
      | .regNum => assembleFields op (regToken ops[0]?) (.value 0) (numToken ops[1]?)
      | .numReg => assembleFields op (regToken ops[1]?) (.value 0) (numToken ops[0]?)
      | .regReg => assembleFields op (regToken ops[0]?) (regToken ops[1]?) (.value 0)
      | .regLiteral => assembleFields op (regToken ops[0]?) (.value 0) (literalToken ops[1]?)
      | .num => assembleFields op (.value 0) (.value 0) (numToken ops[0]?)
      | .reg => assembleFields op (regToken ops[0]?) (.value 0) (.value 0)
      | .nothing => assembleFields op (.value 0) (.value 0) (.value 0)

/-- `asm(line)` for one line (R111). -/
def asmLine (line : List Char) : AsmResult := asmTokens (tokensOf line)

/-- Words of successive lines; none as soon as one line is refused (R111). -/
def asmAll : List (List (List Char)) → Option (List Word)
  | [] => some []
  | l :: ls =>
    match asmTokens l, asmAll ls with
    | .word w, some ws => some (w :: ws)
    | _, _ => none

/-- A program text to the words `load` takes: the first 16 non-empty lines, the rest neither assembled nor checked
(R105, R111). -/
def assemble (text : List Char) : Option (List Word) := asmAll ((linesOf text).take 16)

/-- One decimal digit. -/
def digitChar (n : Nat) : Char := Char.ofNat (48 + n)

/-- A byte in decimal without leading zeros (R112). -/
def decimalText (v : Byte) : List Char :=
  if v.toNat < 10 then [digitChar v.toNat]
  else if v.toNat < 100 then [digitChar (v.toNat / 10), digitChar (v.toNat % 10)]
  else [digitChar (v.toNat / 100), digitChar (v.toNat / 10 % 10), digitChar (v.toNat % 10)]

/-- A byte as eight binary digits (R110, R112). -/
def binaryText (v : Byte) : List Char :=
  [7, 6, 5, 4, 3, 2, 1, 0].map (fun i => if v.getLsbD i then '1' else '0')

/-- One upper-case hexadecimal digit. -/
def hexChar (n : Nat) : Char := if n < 10 then Char.ofNat (48 + n) else Char.ofNat (55 + n)

/-- A word as four hexadecimal digits (R112). -/
def hexText (w : Word) : List Char := [3, 2, 1, 0].map (fun i => hexChar (w.toNat / 16 ^ i % 16))

/-- A register's name (R108). -/
def Reg.text : Reg → List Char
  | .r1 => ['R', '1']
  | .r2 => ['R', '2']

/-- Tokens with one space between them. -/
def spaced : List (List Char) → List Char
  | [] => []
  | [t] => t
  | t :: ts => t ++ ' ' :: spaced ts

/-- The tokens an instruction prints as, in text order (R112). -/
def instrTokens : Instr → List (List Char)
  | .load dst addr => ["LOAD".toList, Reg.text dst, decimalText addr]
  | .store addr src => ["STORE".toList, decimalText addr, Reg.text src]
  | .add dst src => ["ADD".toList, Reg.text dst, Reg.text src]
  | .sub dst src => ["SUB".toList, Reg.text dst, Reg.text src]
  | .and dst src => ["AND".toList, Reg.text dst, Reg.text src]
  | .or dst src => ["OR".toList, Reg.text dst, Reg.text src]
  | .xor dst src => ["XOR".toList, Reg.text dst, Reg.text src]
  | .mov dst literal => ["MOV".toList, Reg.text dst, binaryText literal]
  | .cmp a b => ["CMP".toList, Reg.text a, Reg.text b]
  | .je addr => ["JE".toList, decimalText addr]
  | .jne addr => ["JNE".toList, decimalText addr]
  | .push reg => ["PUSH".toList, Reg.text reg]
  | .pop reg => ["POP".toList, Reg.text reg]
  | .call addr => ["CALL".toList, decimalText addr]
  | .ret => ["RET".toList]
  | .alloc reg size => ["ALLOC".toList, Reg.text reg, decimalText size]
  | .forLoop reg count => ["FOR".toList, Reg.text reg, decimalText count]
  | .endFor => ["ENDFOR".toList]

/-- An instruction's text (R112). -/
def instrText (i : Instr) : List Char := spaced (instrTokens i)

/-- A word's text: the instruction's, or `.word 0xHHHH` for unknown and malformed words (R112). -/
def wordText (w : Word) : List Char :=
  match decodeWord w with
  | .valid i => instrText i
  | .unknown => ".word 0x".toList ++ hexText w
  | .malformed => ".word 0x".toList ++ hexText w

end Sys2Proof.Machine
end

