-- ==== Sys2Proof/Machine/Observe.lean ====
section
/-! DEFINITION. Machine/Observe.lean: the observable outputs (spec/10_state.md R41, spec/20_memory.md R78,
spec/50_pipeline_run_control.md R241). They are functions of the state and feed nothing back. -/

namespace Sys2Proof.Machine

/-- The code of STAGE on the `stage` output (R32). -/
def Stage.code : Stage → BitVec 3
  | .idle => 0
  | .fetch => 1
  | .decode => 2
  | .execute _ => 3
  | .writeBack _ _ => 4

/-- ALUOUT as 9 bits, the valid bit on top (R36, R241). -/
def AluOut.bits (a : AluOut) : BitVec 9 := BitVec.ofBool a.valid ++ a.value

/-- The output signals of R241. -/
structure Outputs where
  obsCell : BitVec 17
  r1 : Byte
  r2 : Byte
  pc : Byte
  zf : Bool
  sp : BitVec 9
  hp : BitVec 16
  stage : BitVec 3
  ir : BitVec 17
  aluOut : BitVec 9
  lsDepth : Nat
  ic : BitVec 5
  n : BitVec 9
  diag : BitVec 3
  diagLog : BitVec 4
  run : Bool
  halted : Bool
  deriving DecidableEq, Repr

/-- The observation read port: the cell at an address, 0 at or above N (R78, R241). -/
def State.obsCell (s : State) (a : Byte) : BitVec 17 :=
  if a.toNat < s.n.toNat then (s.mem.read a.toNat).bits else 0

/-- Every output, for an address on the observation port (R41, R241). -/
def State.outputs (s : State) (obsAddr : Byte) : Outputs where
  obsCell := s.obsCell obsAddr
  r1 := s.r1
  r2 := s.r2
  pc := s.pc
  zf := s.zf
  sp := s.sp
  hp := s.hp
  stage := s.stage.code
  ir := s.ir.bits
  aluOut := s.aluOut.bits
  lsDepth := s.ls.length
  ic := s.ic
  n := s.n
  diag := s.diag
  diagLog := s.diagLog
  run := s.run
  halted := s.halted

end Sys2Proof.Machine
end

