-- ==== Sys2Proof/Machine/Sequencer.lean ====
section
/-! DEFINITION. Machine/Sequencer.lean: the whole machine, one tick at a time (spec/50_pipeline_run_control.md R217 to
R243): the five stages, the run control and the host's commands. -/

namespace Sys2Proof.Machine

/-- A host command (R240). -/
inductive Command where
  | nop
  | resize (n : BitVec 9)
  | load (ws : List Word)
  | step
  | run
  deriving DecidableEq, Repr

/-- What the host drives at a tick: reset, at most one command, and the level `stop` (R240, R241). -/
structure Inputs where
  rst : Bool
  cmd : Command
  stop : Bool
  deriving DecidableEq, Repr

/-- The input signals as R241 lists them. -/
structure Pins where
  rst : Bool
  cmd : BitVec 3
  cmdSize : BitVec 9
  cmdCount : BitVec 5
  cmdWords : Vector Word 16
  stop : Bool
  deriving DecidableEq, Repr

/-- The command the signals carry: codes 5..7 as none, counts above 16 as 16 (R241). -/
def Pins.inputs (p : Pins) : Inputs where
  rst := p.rst
  stop := p.stop
  cmd :=
    match p.cmd.toNat with
    | 1 => .resize p.cmdSize
    | 2 => .load (p.cmdWords.toList.take p.cmdCount.toNat)
    | 3 => .step
    | 4 => .run
    | _ => .nop

/-- `stop` clears RUN, in every stage, and does nothing else (R235, R243). -/
def State.stopped (s : State) (stop : Bool) : State := { s with run := s.run && !stop }

/-- The run-control lines of an Idle tick, tried in order; `resize` and `load` were tried before (R243). A `resize` outside
16..256 has come here as no command. -/
def State.idleControl (s : State) (c : Config) (cmd : Command) (stop : Bool) : State :=
  if !s.inProgram then s.haltedTick
  else if cmd = .step then { s with stage := .fetch }
  else if cmd = .run ∧ stop = false then { s with run := true, idleCnt := 0, stage := .fetch }
  else if s.run ∧ stop = false then
    if c.runInterval ≤ s.idleCnt then { s with idleCnt := 0, stage := .fetch }
    else { s with idleCnt := s.idleCnt + 1 }
  else s

/-- A tick in Idle (R218, R243). -/
def State.idleTick (s : State) (c : Config) (cmd : Command) (stop : Bool) : State :=
  match cmd with
  | .resize n => if sizeWf n then State.resize n else s.idleControl c .nop stop
  | .load ws => s.load ws
  | cmd => s.idleControl c cmd stop

/-- A tick of the stages, `stop` already applied (R219 to R222, R243). -/
def State.stageTick (s : State) (c : Config) (cmd : Command) (stop : Bool) : Host.Outcome State Fault Refusal :=
  match s.stage with
  | .idle => .next (s.idleTick c cmd stop)
  | .fetch =>
    match s.latchIr with
    | none => .fault .fetchOutOfBounds
    | some t => .next { t with stage := .decode }
  | .decode => .next { s with stage := .execute (decode s.ir) }
  | .execute d =>
    .next { s.latchAlu (decodedOutcome c d s) with stage := .writeBack d (decodedOutcome c d s) }
  | .writeBack _ p => .next (s.commit p)

/-- The whole machine as one function (R243); `rst` wins over everything, a step in flight included (R242, R300). -/
def tick (c : Config) (inp : Inputs) (s : State) : Host.Outcome State Fault Refusal :=
  if inp.rst then .next State.reset else (s.stopped inp.stop).stageTick c inp.cmd inp.stop

/-- Ticks in a row, one for each entry of the list, stopping at a fault. -/
def ticks (c : Config) : List Inputs → State → Host.Outcome State Fault Refusal
  | [], s => .next s
  | inp :: rest, s =>
    match tick c inp s with
    | .next t => ticks c rest t
    | .fault f => .fault f
    | .refused r => .refused r

/-- No command, no stop, no reset. -/
def Inputs.quiet : Inputs := { rst := false, cmd := .nop, stop := false }

/-- The host's `step` command alone. -/
def Inputs.stepCmd : Inputs := { rst := false, cmd := .step, stop := false }

end Sys2Proof.Machine
end

