-- ==== Sys2Proof/Safety.lean ====
section
/-! DEFINITION. Safety.lean: the invariants of spec/10_state.md R43, and what a run with nothing reported means
(spec/60_exceptions.md R263). -/

namespace Sys2Proof.Machine

/-- SP is in its reachable range, -1..N-1 (R25, R43). -/
abbrev spInRange (n sp : BitVec 9) : Prop := -1 ≤ sp.toInt ∧ sp.toInt < n.toNat

/-- Every listed cell is inside memory and, when its tag is 0, holds a byte (R43, R61). -/
abbrev cellsOk (n : BitVec 9) (m : Memory) : Prop := ∀ e ∈ m, e.1 < n.toNat ∧ e.2.wf = true

/-- Every frame's FOR stood in the code region (R43). -/
abbrev framesOk (ls : List LoopFrame) : Prop := ∀ f ∈ ls, f.start.toNat < 16

/-- A loop-stack write keeps `framesOk`. -/
def loopOpOk : Option LoopOp → Prop
  | none => True
  | some .pop => True
  | some (.push f) => f.start.toNat < 16

/-- A proposed cell write is inside memory (R65). -/
def cellOpOk (n : BitVec 9) : Option (Nat × Byte) → Prop
  | none => True
  | some (a, _) => a < n.toNat

/-- A proposed SP is in range. -/
def spOpOk (n : BitVec 9) : Option (BitVec 9) → Prop
  | none => True
  | some sp => spInRange n sp

/-- A proposal that raises carries no other write (R262). -/
def dropsAll (p : Proposal) : Prop :=
  p.diag = none ∨ (p.reg = none ∧ p.zf = none ∧ p.sp = none ∧ p.hp = none ∧ p.cell = none ∧ p.loop = none ∧ p.alu = none)

/-- A proposed HP is what the ALLOC in DEC adds up to: only ALLOC writes HP (R26). -/
def heapOpOk (s : State) (d : Decoded) : Option (BitVec 16) → Prop
  | none => True
  | some h => ∃ reg size, d = .valid (.alloc reg size) ∧ h = s.hpAfter size

/-- What PROP may hold, beside what DEC holds, when WriteBack commits it (R35, R222). -/
structure ProposalOk (s : State) (d : Decoded) (p : Proposal) : Prop where
  cell : cellOpOk s.n p.cell
  sp : spOpOk s.n p.sp
  heap : heapOpOk s d p.hp
  loop : loopOpOk p.loop
  drops : dropsAll p

/-- The sequencer's clause of R43: a step is in flight only with `pc < IC`, and PROP is a proposal of this state. -/
def stageOk (s : State) : Prop :=
  match s.stage with
  | .idle => True
  | .fetch => s.inProgram = true
  | .decode => s.inProgram = true
  | .execute _ => s.inProgram = true
  | .writeBack d p => s.inProgram = true ∧ ProposalOk s d p

/-- The invariants of R43, with the canonical form of memory. The clauses on R1, R2, PC and ZF and the bound 65535 on HP hold
by the widths of those fields. HP's lower bound depends on whether an ALLOC has wrapped: it is `State.heapFloor`. -/
structure State.Inv (s : State) : Prop where
  memWf : Memory.wf s.mem
  cells : cellsOk s.n s.mem
  sizeLow : 16 ≤ s.n.toNat
  sizeHigh : s.n.toNat ≤ 256
  icHigh : s.ic.toNat ≤ 16
  sp : spInRange s.n s.sp
  frames : framesOk s.ls
  stage : stageOk s

/-- HP's clause of R43: `16 ≤ HP` as long as no ALLOC has wrapped HP since the last resetting event. `wrapped` is that piece of
history, which the CORE does not hold. -/
def State.heapFloor (wrapped : Bool) (s : State) : Prop := wrapped = false → 16 ≤ s.hp.toNat

/-- Whether what DEC holds takes HP past 65535: an ALLOC whose sum wraps (R26, R184). -/
def allocWraps (s : State) : Decoded → Bool
  | .valid (.alloc _ size) => decide (65536 ≤ s.hp.toNat + size.toNat)
  | _ => false

/-- What `step` executes: the instruction it fetches, or the one in flight; nothing while halted. -/
def State.stepRuns (s : State) : Option Decoded :=
  match s.stage with
  | .idle => if s.inProgram then some (decode (s.mem.read s.pc.toNat)) else none
  | .fetch => some (decode (s.mem.read s.pc.toNat))
  | .decode => some (decode s.ir)
  | .execute d => some d
  | .writeBack d _ => some d

/-- Whether `step` wraps HP. -/
def State.stepWraps (s : State) : Bool := s.stepRuns.any (allocWraps s)

/-- What a tick commits: DEC in WriteBack, nothing in the other stages (R222). -/
def State.tickCommits (s : State) : Option Decoded :=
  match s.stage with
  | .idle => none
  | .fetch => none
  | .decode => none
  | .execute _ => none
  | .writeBack d _ => some d

/-- Whether a tick wraps HP. -/
def State.tickWraps (s : State) : Bool := s.tickCommits.any (allocWraps s)

/-- Nothing was reported since the last resetting event (R263). -/
def State.clean (s : State) : Prop := s.diagLog = 0

/-- Heap and stack do not overlap, `HP ≤ SP + 1`: not enforced by the hardware (R27, R281), so never part of `Inv`. -/
def State.heapBelowStack (s : State) : Prop := (s.hp.toNat : Int) ≤ s.sp.toInt + 1

end Sys2Proof.Machine
end

