-- ==== Sys2Proof/Certificates/Slice0/Obligations.lean ====
section
/-! DEFINITION. Certificates/Slice0/Obligations.lean: the statements for the provers. The first part names what they share; each
statement's docstring says which sentences of spec/ it formalises. Where a rule of spec/ marks a clause as its own decision
(D<n>) or as derived, the statement's basis is 'derived' and its docstring names the mark. -/

namespace Sys2Proof.Claims

open Sys2Proof.Machine

/-- Every cell reads as before. -/
def SameMem (s t : State) : Prop := ∀ a, t.mem.read a = s.mem.read a

/-- Every cell but the one at `k` reads as before. -/
def SameMemBut (k : Nat) (s t : State) : Prop := ∀ a, a ≠ k → t.mem.read a = s.mem.read a

/-- Every general register is as before. -/
def SameRegs (s t : State) : Prop := ∀ r, t.reg r = s.reg r

/-- Every general register but `d` is as before. -/
def SameRegsBut (d : Reg) (s t : State) : Prop := ∀ r, r ≠ d → t.reg r = s.reg r

/-- PC went on by one, modulo 256 (R23). -/
def PcAdvanced (s t : State) : Prop := t.pc.toNat = (s.pc.toNat + 1) % 256

/-- The state no instruction writes: IC, N, IR, RUN, IDLECNT (R22, R29, R30, R33, R39, R40). -/
structure HostStateKept (s t : State) : Prop where
  ic : t.ic = s.ic
  n : t.n = s.n
  ir : t.ir = s.ir
  run : t.run = s.run
  idleCnt : t.idleCnt = s.idleCnt

/-- The step finished without a diagnostic: back in Idle, DIAG 0, DIAGLOG as before (R216). -/
structure FinishedClean (s t : State) : Prop where
  stage : t.stage = .idle
  diag : t.diag = 0
  diagLog : t.diagLog = s.diagLog
  host : HostStateKept s t

/-- The frame of the five ALU instructions: only dst, ALUOUT and PC change (R140). -/
structure AluFrame (dst : Reg) (s t : State) : Prop where
  regs : SameRegsBut dst s t
  zf : t.zf = s.zf
  sp : t.sp = s.sp
  hp : t.hp = s.hp
  ls : t.ls = s.ls
  mem : SameMem s t
  pc : PcAdvanced s t
  latch : t.aluOut = { valid := true, value := t.reg dst }
  finished : FinishedClean s t

/-- The frame of an instruction that changes only PC: no register, flag, pointer, frame, cell or ALUOUT. -/
structure OnlyPcFrame (s t : State) : Prop where
  regs : SameRegs s t
  zf : t.zf = s.zf
  sp : t.sp = s.sp
  hp : t.hp = s.hp
  ls : t.ls = s.ls
  mem : SameMem s t
  aluOut : t.aluOut = s.aluOut
  finished : FinishedClean s t

/-- The state after a step that raised D: `pc + 1`, DIAG, the sticky bit, Idle, everything else as it was (R262). -/
def raised (d : Diag) (s : State) : State :=
  { s with pc := s.pc + 1, stage := .idle, diag := d.code, diagLog := s.diagLog ||| d.logBit }

/-- The architectural state (R20). -/
def arch (s : State) : Memory × Byte × Byte × Bool × Byte × BitVec 9 × BitVec 16 × List LoopFrame × BitVec 5 × BitVec 9 :=
  (s.mem, s.r1, s.r2, s.zf, s.pc, s.sp, s.hp, s.ls, s.ic, s.n)

/-- The address of an instruction's one data access, as an integer (R65, R69). -/
def accessAddr (i : Instr) (s : State) : Option Int :=
  match i with
  | .load _ addr => some (addr.toNat : Int)
  | .store addr _ => some (addr.toNat : Int)
  | .push _ => some s.sp.toInt
  | .call _ => some s.sp.toInt
  | .pop _ => some (s.sp.toInt + 1)
  | .ret => some (s.sp.toInt + 1)
  | .add _ _ => none
  | .sub _ _ => none
  | .and _ _ => none
  | .or _ _ => none
  | .xor _ _ => none
  | .mov _ _ => none
  | .cmp _ _ => none
  | .je _ => none
  | .jne _ => none
  | .alloc _ _ => none
  | .forLoop _ _ => none
  | .endFor => none

/-- The causes of OutOfBounds as R264 lists them. -/
def outOfBoundsCause (d : Decoded) (s : State) : Prop :=
  match d with
  | .valid (.load _ imm) => s.n.toNat ≤ imm.toNat
  | .valid (.store imm _) => s.n.toNat ≤ imm.toNat
  | .valid (.push _) => s.sp.toInt = -1
  | .valid (.call _) => s.sp.toInt = -1
  | .valid (.pop _) => s.sp.toInt = (s.n.toNat : Int) - 1
  | .valid .ret => s.sp.toInt = (s.n.toNat : Int) - 1
  | _ => False

/-- One instruction executed k times in a row. -/
def execTimes (i : Instr) : Nat → State → Host.Outcome State Fault Refusal
  | 0, s => .next s
  | k + 1, s =>
    match exec i s with
    | .next t => execTimes i k t
    | .fault f => .fault f
    | .refused r => .refused r

/-- The entries `match` and `mask` of an instruction's row in the opcode table (R97, opcode_table.json). -/
def tableRow : Instr → Word × Word
  | .load _ _ => (0x0800#16, 0xFD00#16)
  | .store _ _ => (0x1000#16, 0xFD00#16)
  | .add _ _ => (0x1800#16, 0xFD7F#16)
  | .sub _ _ => (0x2000#16, 0xFD7F#16)
  | .and _ _ => (0x2800#16, 0xFD7F#16)
  | .or _ _ => (0x3000#16, 0xFD7F#16)
  | .xor _ _ => (0x3800#16, 0xFD7F#16)
  | .mov _ _ => (0x4000#16, 0xFD00#16)
  | .cmp _ _ => (0x4800#16, 0xFD7F#16)
  | .je _ => (0x5000#16, 0xFF00#16)
  | .jne _ => (0x5800#16, 0xFF00#16)
  | .push _ => (0x6000#16, 0xFDFF#16)
  | .pop _ => (0x6800#16, 0xFDFF#16)
  | .call _ => (0x7000#16, 0xFF00#16)
  | .ret => (0x7800#16, 0xFFFF#16)
  | .alloc _ _ => (0x8000#16, 0xFD00#16)
  | .forLoop _ _ => (0x8800#16, 0xFD00#16)
  | .endFor => (0x9000#16, 0xFFFF#16)

end Sys2Proof.Claims

open Sys2Proof Sys2Proof.Machine Sys2Proof.Claims

/-! ## Encoding -/

/-- Decoding the word of any instruction gives it back, with every operand at every value (R91 to R97, R100; the layout is
decisions D2 and D3 of the spec). -/
def Obligations.DecodeEncodeRoundTrip : Prop := ∀ i : Instr, decode (Cell.instr (encode i)) = .valid i

/-- A word that decodes to an instruction is that instruction's word: two words never decode alike (R97, R98; D2, D3, D13). -/
def Obligations.DecodeDeterminesTheWord : Prop :=
  ∀ (w : Word) (i : Instr), decode (Cell.instr w) = .valid i → encode i = w

/-- A word is a valid instance of a row exactly when `(w & mask) = match`, and only then decodes to an instruction of that
row (R97, opcode_table.json; D3). -/
def Obligations.DecodeFollowsTheTable : Prop :=
  (∀ (w : Word) (i : Instr), decode (Cell.instr w) = .valid i → w &&& (tableRow i).2 = (tableRow i).1) ∧
  ∀ (w : Word) (i : Instr), w &&& (tableRow i).2 = (tableRow i).1 →
    ∃ j, decode (Cell.instr w) = .valid j ∧ tableRow j = tableRow i

/-- The three classes of cells (R98, R99, R100; D2, D3, D13): unknown by the tag or the opcode alone, malformed by the
must-be-zero bits of a known opcode, and an instruction otherwise. -/
def Obligations.DecoderClassesAreTotal : Prop :=
  ∀ c : Cell,
    (decode c = .unknown ↔ c.tag = false ∨ opField c.payload = 0 ∨ 18 < opField c.payload) ∧
    (decode c = .malformed ↔
      c.tag = true ∧ 1 ≤ opField c.payload ∧ opField c.payload ≤ 18 ∧
        c.payload &&& mbzMask (opField c.payload) ≠ 0#16) ∧
    ((∃ i, decode c = .valid i) ↔
      c.tag = true ∧ 1 ≤ opField c.payload ∧ opField c.payload ≤ 18 ∧
        c.payload &&& mbzMask (opField c.payload) = 0#16)

/-- Words written out from the encoding diagrams of 30_encoding.md decode as the spec's examples say (R130, R131, R142 to R146,
R160, R161, R170, R180 to R184, R200, R201; layout D2, D3). -/
def Obligations.SampleWordsDecode : Prop :=
  decode (Cell.instr 0x0A14#16) = .valid (.load .r2 20) ∧
  decode (Cell.instr 0x1014#16) = .valid (.store 20 .r1) ∧
  decode (Cell.instr 0x1A00#16) = .valid (.add .r2 .r1) ∧
  decode (Cell.instr 0x4005#16) = .valid (.mov .r1 5) ∧
  decode (Cell.instr 0x5008#16) = .valid (.je 8) ∧
  decode (Cell.instr 0x6A00#16) = .valid (.pop .r2) ∧
  decode (Cell.instr 0x8803#16) = .valid (.forLoop .r1 3) ∧
  decode (Cell.instr 0x0FFF#16) = .malformed ∧
  decode (Cell.instr 0x9800#16) = .unknown ∧
  decode (Cell.byte 42) = .unknown

/-! ## Reset and the host's commands -/

/-- Power-on reset leaves the power-on column of R42, and `rst` reaches it from every state and stage, whatever else is on
the inputs (R42, R300, R242; D20, D25). -/
def Obligations.ResetLeavesPowerOnValues : Prop :=
  (∀ a, State.reset.mem.read a = Cell.byte 0) ∧
  State.reset.n = 32 ∧ State.reset.r1 = 0 ∧ State.reset.r2 = 0 ∧ State.reset.zf = false ∧ State.reset.pc = 0 ∧
  State.reset.sp.toInt = 31 ∧ State.reset.hp = 16 ∧ State.reset.ls = [] ∧ State.reset.ic = 0 ∧
  State.reset.stage = .idle ∧ State.reset.ir.bits = 0 ∧ State.reset.aluOut.bits = 0 ∧ State.reset.diag = 0 ∧
  State.reset.diagLog = 0 ∧ State.reset.run = false ∧ State.reset.idleCnt = 0 ∧ State.reset.halted = true ∧
  ∀ (c : Config) (cmd : Command) (stop : Bool) (s : State),
    tick c { rst := true, cmd := cmd, stop := stop } s = .next State.reset

/-- `resize(n)` with a legal n, taken in Idle: the resize column of R42; the CORE is halted afterwards (R42, R301). The display
state's values are decisions D15, D20, D22, D25, D26. -/
def Obligations.ResizeResetsEverything : Prop :=
  ∀ (c : Config) (s : State) (n : BitVec 9) (stop : Bool), s.stage = .idle → 16 ≤ n.toNat → n.toNat ≤ 256 →
    ∃ t, tick c { rst := false, cmd := .resize n, stop := stop } s = .next t ∧
      t.n = n ∧ (∀ a, t.mem.read a = Cell.byte 0) ∧ SameRegs State.reset t ∧ t.zf = false ∧ t.pc = 0 ∧
      t.sp.toInt = (n.toNat : Int) - 1 ∧ t.hp.toNat = 16 ∧ t.ls = [] ∧ t.ic = 0 ∧ t.stage = .idle ∧
      t.ir.bits = 0 ∧ t.aluOut.bits = 0 ∧ t.diag = 0 ∧ t.diagLog = 0 ∧ t.run = false ∧ t.idleCnt = 0 ∧ t.halted = true

/-- A `resize` outside 16..256 is as no command at all (R243, R301; D24). -/
def Obligations.ResizeOutsideRangeIgnored : Prop :=
  ∀ (c : Config) (s : State) (n : BitVec 9) (stop : Bool), n.toNat < 16 ∨ 256 < n.toNat →
    tick c { rst := false, cmd := .resize n, stop := stop } s = tick c { rst := false, cmd := .nop, stop := stop } s

/-- `load` of k words, taken in Idle: words at 0..k-1, every other cell, R1, R2, ZF and N as before, the rest as the load
column of R42 (R42, R79, R302; D23). More than 16 words count as 16 (R241; D20). -/
def Obligations.LoadWritesProgramAndResets : Prop :=
  ∀ (c : Config) (s : State) (ws : List Word) (stop : Bool),
    s.stage = .idle → Memory.wf s.mem → 16 ≤ s.n.toNat → s.n.toNat ≤ 256 →
    ∃ t, tick c { rst := false, cmd := .load ws, stop := stop } s = .next t ∧
      (∀ (a : Nat) (w : Word), a < 16 → ws[a]? = some w → t.mem.read a = Cell.instr w) ∧
      (∀ a, min 16 ws.length ≤ a → t.mem.read a = s.mem.read a) ∧
      t.ic.toNat = min 16 ws.length ∧ t.pc = 0 ∧ t.sp.toInt = (s.n.toNat : Int) - 1 ∧ t.hp.toNat = 16 ∧ t.ls = [] ∧
      SameRegs s t ∧ t.zf = s.zf ∧ t.n = s.n ∧ t.stage = .idle ∧ t.ir.bits = 0 ∧ t.aluOut.bits = 0 ∧
      t.diag = 0 ∧ t.diagLog = 0 ∧ t.run = false ∧ t.idleCnt = 0

/-! ## One step -/

/-- In Idle with `pc < IC`, a cell that decodes to an instruction is latched in IR and that instruction is executed (R216). -/
def Obligations.StepRunsTheDecodedInstruction : Prop :=
  ∀ (s : State) (i : Instr), s.stage = .idle → s.pc.toNat < s.ic.toNat → s.pc.toNat < s.n.toNat →
    decode (s.mem.read s.pc.toNat) = .valid i →
    step s = exec i { s with ir := s.mem.read s.pc.toNat }

/-- In Idle with `pc < IC`, an unknown cell raises UnknownOpcode and a malformed word MalformedOperand; nothing but IR, pc,
DIAG and DIAGLOG changes (R98, R99, R216, R262; D3, D12, D13). -/
def Obligations.StepRaisesOnRejectedCells : Prop :=
  ∀ s : State, s.stage = .idle → s.pc.toNat < s.ic.toNat → s.pc.toNat < s.n.toNat →
    (decode (s.mem.read s.pc.toNat) = .unknown →
      step s = .next (raised .unknownOpcode { s with ir := s.mem.read s.pc.toNat })) ∧
    (decode (s.mem.read s.pc.toNat) = .malformed →
      step s = .next (raised .malformedOperand { s with ir := s.mem.read s.pc.toNat }))

/-- While halted no step is granted: `step` and `run` clear RUN and do nothing else, in `step` and in `tick` (R233, R243;
D21). That the model's `step` answers a next state there is the model's reading, log entry 5. -/
def Obligations.HaltedGrantsNothing : Prop :=
  ∀ s : State, s.halted = true →
    step s = .next { s with run := false } ∧
    ∀ (c : Config) (cmd : Command) (stop : Bool), cmd = .nop ∨ cmd = .step ∨ cmd = .run →
      tick c { rst := false, cmd := cmd, stop := stop } s = .next { s with run := false }

/-- `step` answers a next state in every state that keeps `State.Inv`. For an Idle state with `pc < IC` this is R216's totality
with R43 (the spec's own derivation) for the fetch. Halted states and states with a step in flight, where R216 defines no
step, are the model's choice: log entries 5 and 4. -/
def Obligations.StepNeverStops : Prop := ∀ s : State, s.Inv → ∃ t, step s = .next t

/-- What `step` does to a state with a step in flight: it finishes that step (the model's choice, log entry 4; R224). From
Fetch it is the step from Idle, from the other stages it goes on with IR, DEC and PROP; an unknown cell ends in UnknownOpcode,
a malformed one in MalformedOperand (R216, R262; D3, D12, D13). -/
def Obligations.StepFinishesAStepInFlight : Prop :=
  ∀ s : State,
    (s.stage = .fetch → s.pc.toNat < s.ic.toNat → step s = step { s with stage := .idle }) ∧
    (s.stage = .decode →
      (∀ i, decode s.ir = .valid i → step s = exec i s) ∧
      (decode s.ir = .unknown → step s = .next (raised .unknownOpcode s)) ∧
      (decode s.ir = .malformed → step s = .next (raised .malformedOperand s))) ∧
    (∀ i, s.stage = .execute (.valid i) → step s = exec i s) ∧
    (s.stage = .execute .unknown → step s = .next (raised .unknownOpcode s)) ∧
    (s.stage = .execute .malformed → step s = .next (raised .malformedOperand s)) ∧
    (∀ d p, s.stage = .writeBack d p → ∃ t, step s = .next t ∧ tick Config.hardware Inputs.quiet s = .next t)

/-! ## The instructions -/

/-- ADD, rule R142 whole: its word and text, the sum modulo 256 in dst and ALUOUT, no flag, no diagnostic. -/
def Obligations.AddWrapsModulo256 : Prop :=
  ∀ (dst src : Reg) (s : State),
    encode (.add dst src) = 0x1800#16 ||| BitVec.ofNat 16 (dst.bit <<< 9) ||| BitVec.ofNat 16 (src.bit <<< 7) ∧
    asmLine (spaced ["ADD".toList, Reg.text dst, Reg.text src]) = .word (encode (.add dst src)) ∧
    ∃ t, exec (.add dst src) s = .next t ∧
      (t.reg dst).toNat = ((s.reg dst).toNat + (s.reg src).toNat) % 256 ∧ AluFrame dst s t

/-- SUB, rule R143 whole: the difference modulo 256, never negative. -/
def Obligations.SubWrapsModulo256 : Prop :=
  ∀ (dst src : Reg) (s : State),
    encode (.sub dst src) = 0x2000#16 ||| BitVec.ofNat 16 (dst.bit <<< 9) ||| BitVec.ofNat 16 (src.bit <<< 7) ∧
    asmLine (spaced ["SUB".toList, Reg.text dst, Reg.text src]) = .word (encode (.sub dst src)) ∧
    ∃ t, exec (.sub dst src) s = .next t ∧
      ((t.reg dst).toNat : Int) = (((s.reg dst).toNat : Int) - ((s.reg src).toNat : Int)) % 256 ∧ AluFrame dst s t

/-- AND, rule R144 whole, bit by bit. -/
def Obligations.AndActsBitwise : Prop :=
  ∀ (dst src : Reg) (s : State),
    encode (.and dst src) = 0x2800#16 ||| BitVec.ofNat 16 (dst.bit <<< 9) ||| BitVec.ofNat 16 (src.bit <<< 7) ∧
    asmLine (spaced ["AND".toList, Reg.text dst, Reg.text src]) = .word (encode (.and dst src)) ∧
    ∃ t, exec (.and dst src) s = .next t ∧
      (∀ k, k < 8 → (t.reg dst).getLsbD k = ((s.reg dst).getLsbD k && (s.reg src).getLsbD k)) ∧ AluFrame dst s t

/-- OR, rule R145 whole, bit by bit. -/
def Obligations.OrActsBitwise : Prop :=
  ∀ (dst src : Reg) (s : State),
    encode (.or dst src) = 0x3000#16 ||| BitVec.ofNat 16 (dst.bit <<< 9) ||| BitVec.ofNat 16 (src.bit <<< 7) ∧
    asmLine (spaced ["OR".toList, Reg.text dst, Reg.text src]) = .word (encode (.or dst src)) ∧
    ∃ t, exec (.or dst src) s = .next t ∧
      (∀ k, k < 8 → (t.reg dst).getLsbD k = ((s.reg dst).getLsbD k || (s.reg src).getLsbD k)) ∧ AluFrame dst s t

/-- XOR, rule R146 whole, bit by bit. -/
def Obligations.XorActsBitwise : Prop :=
  ∀ (dst src : Reg) (s : State),
    encode (.xor dst src) = 0x3800#16 ||| BitVec.ofNat 16 (dst.bit <<< 9) ||| BitVec.ofNat 16 (src.bit <<< 7) ∧
    asmLine (spaced ["XOR".toList, Reg.text dst, Reg.text src]) = .word (encode (.xor dst src)) ∧
    ∃ t, exec (.xor dst src) s = .next t ∧
      (∀ k, k < 8 → (t.reg dst).getLsbD k = ((s.reg dst).getLsbD k != (s.reg src).getLsbD k)) ∧ AluFrame dst s t

/-- MOV: the literal in dst, nothing else but PC (R160: pseudocode, flags, diagnostics). -/
def Obligations.MovWritesTheLiteral : Prop :=
  ∀ (dst : Reg) (literal : Byte) (s : State),
    ∃ t, exec (.mov dst literal) s = .next t ∧ t.reg dst = literal ∧ SameRegsBut dst s t ∧ t.zf = s.zf ∧ t.sp = s.sp ∧
      t.hp = s.hp ∧ t.ls = s.ls ∧ SameMem s t ∧ t.aluOut = s.aluOut ∧ PcAdvanced s t ∧ FinishedClean s t

/-- CMP: ZF is 1 iff the registers are equal, nothing else but PC changes (R161: pseudocode, flags, diagnostics; that both
operands are registers is D5). -/
def Obligations.CmpWritesOnlyZf : Prop :=
  ∀ (a b : Reg) (s : State),
    ∃ t, exec (.cmp a b) s = .next t ∧ (t.zf = true ↔ s.reg a = s.reg b) ∧ SameRegs s t ∧ t.sp = s.sp ∧ t.hp = s.hp ∧
      t.ls = s.ls ∧ SameMem s t ∧ t.aluOut = s.aluOut ∧ PcAdvanced s t ∧ FinishedClean s t

/-- ZF, rule R24 whole: CMP writes it to 1 iff equal, JE and JNE read it, no other instruction reads or writes it, it resets
to 0. Reading is said by running the instruction with either value of ZF. -/
def Obligations.ZfIsCmpsAlone : Prop :=
  (∀ (a b : Reg) (s : State), ∃ t, exec (.cmp a b) s = .next t ∧ (t.zf = true ↔ s.reg a = s.reg b)) ∧
  (∀ (addr : Byte) (s : State), ∃ t u, exec (.je addr) s = .next t ∧ exec (.jne addr) s = .next u ∧
    (t.pc.toNat = if s.zf then addr.toNat else (s.pc.toNat + 1) % 256) ∧
    (u.pc.toNat = if s.zf then (s.pc.toNat + 1) % 256 else addr.toNat)) ∧
  (∀ (i : Instr) (s t : State), (∀ a b, i ≠ .cmp a b) → exec i s = .next t → t.zf = s.zf) ∧
  (∀ (i : Instr) (s t : State) (z : Bool), (∀ a, i ≠ .je a) → (∀ a, i ≠ .jne a) → exec i s = .next t →
    ∃ u, exec i { s with zf := z } = .next u ∧ { u with zf := t.zf } = t) ∧
  State.reset.zf = false

/-- JE, rule R170 whole: word, text, the jump, and a target at or above IC halts the CORE. -/
def Obligations.JeJumpsWhenZfIsSet : Prop :=
  ∀ (addr : Byte) (s : State),
    encode (.je addr) = 0x5000#16 ||| BitVec.ofNat 16 addr.toNat ∧
    asmLine (spaced ["JE".toList, decimalText addr]) = .word (encode (.je addr)) ∧
    ∃ t, exec (.je addr) s = .next t ∧ (s.zf = true → t.pc = addr) ∧ (s.zf = false → PcAdvanced s t) ∧
      (s.zf = true → s.ic.toNat ≤ addr.toNat → t.halted = true) ∧ OnlyPcFrame s t

/-- JNE, rule R171 whole: JE with the condition inverted, so exactly one of the two is taken. -/
def Obligations.JneJumpsWhenZfIsClear : Prop :=
  ∀ (addr : Byte) (s : State),
    encode (.jne addr) = 0x5800#16 ||| BitVec.ofNat 16 addr.toNat ∧
    asmLine (spaced ["JNE".toList, decimalText addr]) = .word (encode (.jne addr)) ∧
    State.reset.zf = false ∧
    ∃ t, exec (.jne addr) s = .next t ∧ (s.zf = false → t.pc = addr) ∧ (s.zf = true → PcAdvanced s t) ∧
      (s.zf = false → s.ic.toNat ≤ addr.toNat → t.halted = true) ∧ OnlyPcFrame s t

/-- LOAD in bounds of a data cell: the byte in dst, nothing else but PC (R130: pseudocode, flags). -/
def Obligations.LoadReadsTheByte : Prop :=
  ∀ (dst : Reg) (addr : Byte) (s : State), addr.toNat < s.n.toNat → (s.mem.read addr.toNat).tag = false →
    ∃ t, exec (.load dst addr) s = .next t ∧ t.reg dst = (s.mem.read addr.toNat).data ∧ SameRegsBut dst s t ∧
      t.zf = s.zf ∧ t.sp = s.sp ∧ t.hp = s.hp ∧ t.ls = s.ls ∧ SameMem s t ∧ t.aluOut = s.aluOut ∧ PcAdvanced s t ∧
      FinishedClean s t

/-- STORE in bounds: the whole cell becomes `Byte(src)`, every other cell reads as before (R131: pseudocode, flags; R68). -/
def Obligations.StoreReplacesTheCell : Prop :=
  ∀ (addr : Byte) (src : Reg) (s : State), Memory.wf s.mem → addr.toNat < s.n.toNat →
    ∃ t, exec (.store addr src) s = .next t ∧ t.mem.read addr.toNat = Cell.byte (s.reg src) ∧
      SameMemBut addr.toNat s t ∧ SameRegs s t ∧ t.zf = s.zf ∧ t.sp = s.sp ∧ t.hp = s.hp ∧ t.ls = s.ls ∧
      t.aluOut = s.aluOut ∧ PcAdvanced s t ∧ FinishedClean s t

/-- PUSH: word, text, the byte at SP and SP - 1; a PUSH at SP = 0 writes MEM[0] and leaves SP = -1 (R180). At SP = -1
OutOfBounds with nothing changed but pc, DIAG and DIAGLOG: that the step goes on so is decision D12 of the spec (R180, R185,
R262), log entry 13. -/
def Obligations.PushWritesAtSpThenDecrements : Prop :=
  ∀ (reg : Reg) (s : State),
    encode (.push reg) = 0x6000#16 ||| BitVec.ofNat 16 (reg.bit <<< 9) ∧
    asmLine (spaced ["PUSH".toList, Reg.text reg]) = .word (encode (.push reg)) ∧
    (Memory.wf s.mem → 0 ≤ s.sp.toInt → s.sp.toInt ≤ (s.n.toNat : Int) - 1 →
      ∃ t, exec (.push reg) s = .next t ∧ t.mem.read s.sp.toInt.toNat = Cell.byte (s.reg reg) ∧
        SameMemBut s.sp.toInt.toNat s t ∧ t.sp.toInt = s.sp.toInt - 1 ∧ SameRegs s t ∧ t.zf = s.zf ∧ t.hp = s.hp ∧
        t.ls = s.ls ∧ t.aluOut = s.aluOut ∧ PcAdvanced s t ∧ FinishedClean s t) ∧
    (s.sp.toInt = -1 → exec (.push reg) s = .next (raised .outOfBounds s))

/-- POP of a data cell: the byte above SP in the register, SP + 1, the cell kept (R181: pseudocode, flags). -/
def Obligations.PopReadsAboveSp : Prop :=
  ∀ (reg : Reg) (s : State), s.n.toNat ≤ 256 → -1 ≤ s.sp.toInt → s.sp.toInt + 1 < s.n.toNat →
    (s.mem.read (s.sp.toInt + 1).toNat).tag = false →
    ∃ t, exec (.pop reg) s = .next t ∧ t.reg reg = (s.mem.read (s.sp.toInt + 1).toNat).data ∧
      t.sp.toInt = s.sp.toInt + 1 ∧ SameRegsBut reg s t ∧ t.zf = s.zf ∧ t.hp = s.hp ∧ t.ls = s.ls ∧ SameMem s t ∧
      t.aluOut = s.aluOut ∧ PcAdvanced s t ∧ FinishedClean s t

/-- CALL with room on the stack: `pc + 1` modulo 256 as a byte at SP, SP - 1, the jump (R182: pseudocode, flags). -/
def Obligations.CallPushesTheReturnAddress : Prop :=
  ∀ (addr : Byte) (s : State), Memory.wf s.mem → 0 ≤ s.sp.toInt → s.sp.toInt < s.n.toNat →
    ∃ t v, exec (.call addr) s = .next t ∧ t.mem.read s.sp.toInt.toNat = Cell.byte v ∧
      v.toNat = (s.pc.toNat + 1) % 256 ∧ SameMemBut s.sp.toInt.toNat s t ∧ t.sp.toInt = s.sp.toInt - 1 ∧ t.pc = addr ∧
      SameRegs s t ∧ t.zf = s.zf ∧ t.hp = s.hp ∧ t.ls = s.ls ∧ t.aluOut = s.aluOut ∧ FinishedClean s t

/-- RET of a data cell: the byte above SP is the next PC, SP + 1, the cell kept (R183: pseudocode, flags). -/
def Obligations.RetJumpsToTheTopByte : Prop :=
  ∀ s : State, s.n.toNat ≤ 256 → -1 ≤ s.sp.toInt → s.sp.toInt + 1 < s.n.toNat →
    (s.mem.read (s.sp.toInt + 1).toNat).tag = false →
    ∃ t, exec .ret s = .next t ∧ t.pc = (s.mem.read (s.sp.toInt + 1).toNat).data ∧ t.sp.toInt = s.sp.toInt + 1 ∧
      SameRegs s t ∧ t.zf = s.zf ∧ t.hp = s.hp ∧ t.ls = s.ls ∧ SameMem s t ∧ t.aluOut = s.aluOut ∧ FinishedClean s t

/-- ALLOC: the old HP modulo 256 in the register, HP up by the size modulo 65536, no check (R184: pseudocode, flags,
diagnostics; widths and the unchecked behaviour are D10 and D18). -/
def Obligations.AllocHandsOutHp : Prop :=
  ∀ (reg : Reg) (size : Byte) (s : State),
    ∃ t, exec (.alloc reg size) s = .next t ∧ (t.reg reg).toNat = s.hp.toNat % 256 ∧
      t.hp.toNat = (s.hp.toNat + size.toNat) % 65536 ∧ SameRegsBut reg s t ∧ t.zf = s.zf ∧ t.sp = s.sp ∧ t.ls = s.ls ∧
      SameMem s t ∧ t.aluOut = s.aluOut ∧ PcAdvanced s t ∧ FinishedClean s t

/-- FOR, rule R200 whole: word, text, the count in the register, a frame with the FOR's own address on top; it cannot fail. -/
def Obligations.ForLoadsCounterAndPushesFrame : Prop :=
  ∀ (reg : Reg) (count : Byte) (s : State),
    encode (.forLoop reg count) =
      0x8800#16 ||| BitVec.ofNat 16 (reg.bit <<< 9) ||| BitVec.ofNat 16 count.toNat ∧
    asmLine (spaced ["FOR".toList, Reg.text reg, decimalText count]) = .word (encode (.forLoop reg count)) ∧
    ∃ t, exec (.forLoop reg count) s = .next t ∧ t.reg reg = count ∧
      t.ls = { start := s.pc, reg := reg } :: s.ls ∧ SameRegsBut reg s t ∧ t.zf = s.zf ∧ t.sp = s.sp ∧ t.hp = s.hp ∧
      SameMem s t ∧ t.aluOut = s.aluOut ∧ PcAdvanced s t ∧ FinishedClean s t

/-- ENDFOR with a frame: the top frame's register counts down modulo 256; back to `start + 1` with the frame kept when the
counter was 2 or more, else the frame is popped (R201: pseudocode). The case of counter 0 rests on R5's value of
ENDFOR_ZERO_WRAPS for this hardware, decision D17, log entry 7. -/
def Obligations.EndForCountsTheTopFrameDown : Prop :=
  ∀ (s : State) (f : LoopFrame) (rest : List LoopFrame), s.ls = f :: rest →
    ∃ t, exec .endFor s = .next t ∧
      ((t.reg f.reg).toNat : Int) = (((s.reg f.reg).toNat : Int) - 1) % 256 ∧
      (if 2 ≤ (s.reg f.reg).toNat then t.ls = s.ls ∧ t.pc.toNat = (f.start.toNat + 1) % 256
       else t.ls = rest ∧ PcAdvanced s t) ∧
      SameRegsBut f.reg s t ∧ t.zf = s.zf ∧ t.sp = s.sp ∧ t.hp = s.hp ∧ SameMem s t ∧ t.aluOut = s.aluOut ∧
      FinishedClean s t

/-- ENDFOR for either value of the model argument ENDFOR_ZERO_WRAPS: Execute and WriteBack of ENDFOR under a configuration c
loop when the stored byte is above 0 (true) or when the integer `v - 1` is above 0 (false) (R201, R5; D17, C13). -/
def Obligations.EndForUnderEitherReading : Prop :=
  ∀ (c : Config) (s : State) (f : LoopFrame) (rest : List LoopFrame), s.stage = .execute (.valid .endFor) →
    s.ls = f :: rest →
    ∃ t, ticks c [Inputs.quiet, Inputs.quiet] s = .next t ∧
      ((t.reg f.reg).toNat : Int) = (((s.reg f.reg).toNat : Int) - 1) % 256 ∧
      (if (if c.endForZeroWraps then 0 < (t.reg f.reg).toNat else 0 < ((s.reg f.reg).toNat : Int) - 1)
       then t.ls = s.ls ∧ t.pc.toNat = (f.start.toNat + 1) % 256
       else t.ls = rest ∧ PcAdvanced s t)

/-- The forms that raise: OutOfBounds for the data accesses outside memory, MalformedOperand for an instruction word read as
data, LoopStackUnderflow for ENDFOR on the empty loop stack, each changing PC, DIAG and DIAGLOG only (R130, R131, R181 to
R183, R201, R262, R264, R266; D12, D16). -/
def Obligations.FailingFormsRaise : Prop :=
  ∀ s : State,
    (∀ dst addr, s.n.toNat ≤ addr.toNat → exec (.load dst addr) s = .next (raised .outOfBounds s)) ∧
    (∀ dst addr, addr.toNat < s.n.toNat → (s.mem.read addr.toNat).tag = true →
      exec (.load dst addr) s = .next (raised .malformedOperand s)) ∧
    (∀ addr src, s.n.toNat ≤ addr.toNat → exec (.store addr src) s = .next (raised .outOfBounds s)) ∧
    (∀ addr, s.sp.toInt = -1 → exec (.call addr) s = .next (raised .outOfBounds s)) ∧
    (∀ reg, s.sp.toInt = (s.n.toNat : Int) - 1 → exec (.pop reg) s = .next (raised .outOfBounds s)) ∧
    (s.sp.toInt = (s.n.toNat : Int) - 1 → exec .ret s = .next (raised .outOfBounds s)) ∧
    (∀ reg, -1 ≤ s.sp.toInt → s.sp.toInt + 1 < s.n.toNat → (s.mem.read (s.sp.toInt + 1).toNat).tag = true →
      exec (.pop reg) s = .next (raised .malformedOperand s)) ∧
    (-1 ≤ s.sp.toInt → s.sp.toInt + 1 < s.n.toNat → (s.mem.read (s.sp.toInt + 1).toNat).tag = true →
      exec .ret s = .next (raised .malformedOperand s)) ∧
    (s.ls = [] → exec .endFor s = .next (raised .loopStackUnderflow s))

/-! ## Families of instructions -/

/-- PUSH then POP restores SP and moves the byte (R186, derived by the spec from R180 and R181). -/
def Obligations.PushThenPopRestores : Prop :=
  ∀ (r r' : Reg) (s : State), Memory.wf s.mem → 0 ≤ s.sp.toInt → s.sp.toInt < s.n.toNat →
    ∃ t u, exec (.push r) s = .next t ∧ exec (.pop r') t = .next u ∧ u.sp = s.sp ∧ u.reg r' = s.reg r

/-- CALL, then any state with the same SP, N and return cell, then RET: execution goes on after the CALL and SP is back
(R186, derived by the spec from R182 and R183). -/
def Obligations.CallThenRetResumes : Prop :=
  ∀ (addr : Byte) (s : State), Memory.wf s.mem → 0 ≤ s.sp.toInt → s.sp.toInt < s.n.toNat →
    ∃ t, exec (.call addr) s = .next t ∧ t.pc = addr ∧
      ∀ u : State, u.sp = t.sp → u.n = t.n → u.mem.read s.sp.toInt.toNat = t.mem.read s.sp.toInt.toNat →
        ∃ v, exec .ret u = .next v ∧ PcAdvanced s v ∧ v.sp = s.sp

/-- FOR with count n from 1 to 255, then ENDFOR k times: the counter is n - k, the frame stays until k = n and is popped
exactly then (R203, derived by the spec from R200 and R201). -/
def Obligations.LoopRunsCountTimes : Prop :=
  ∀ (reg : Reg) (count : Byte) (s : State), 1 ≤ count.toNat →
    ∃ t, exec (.forLoop reg count) s = .next t ∧
      ∀ k, k ≤ count.toNat →
        ∃ u, execTimes .endFor k t = .next u ∧ (u.reg reg).toNat = count.toNat - k ∧
          u.ls = if k < count.toNat then { start := s.pc, reg := reg } :: s.ls else s.ls

/-! ## Memory -/

/-- A write replaces the whole cell, tag included, whatever it held, and no other cell (R68 whole). -/
def Obligations.WriteReplacesTheWholeCell : Prop :=
  ∀ (m : Memory) (a : Nat) (v : Byte), Memory.wf m →
    ((memAfter m (some (a, v))).read a = Cell.byte v) ∧ ∀ b, b ≠ a → (memAfter m (some (a, v))).read b = m.read b

/-- Bounds, rule R65 whole: an instruction raises OutOfBounds exactly when the address of its data access, as an integer, is
outside 0..N-1, and fetch is never out of bounds in a state that keeps the invariants. -/
def Obligations.BoundsAreCheckedOnEveryAccess : Prop :=
  (∀ (i : Instr) (s t : State), exec i s = .next t →
    (t.diag = Diag.outOfBounds.code ↔ ∃ a, accessAddr i s = some a ∧ ¬ (0 ≤ a ∧ a < s.n.toNat))) ∧
  ∀ s : State, s.Inv → s.inProgram = true → s.pc.toNat < s.n.toNat

/-- Who produces which kind of cell, rule R62 whole: reset and `resize` leave `Byte(0)` everywhere; an instruction changes a
cell only by STORE, PUSH or CALL and only to a data byte, and each of the three does produce one; an instruction word comes
only from `load`, only below address 16. -/
def Obligations.OnlyLoadProducesInstructionWords : Prop :=
  (∀ a, State.reset.mem.read a = Cell.byte 0) ∧
  (∀ (n : BitVec 9) (a : Nat), (State.resize n).mem.read a = Cell.byte 0) ∧
  (∀ (i : Instr) (s t : State) (a : Nat), Memory.wf s.mem → exec i s = .next t → t.mem.read a ≠ s.mem.read a →
    (∃ v, t.mem.read a = Cell.byte v) ∧ ((∃ x r, i = .store x r) ∨ (∃ r, i = .push r) ∨ ∃ x, i = .call x)) ∧
  (∀ (s t : State) (k : Nat) (i : Instr), Memory.wf s.mem → accessAddr i s = some (k : Int) → k < s.n.toNat →
    ((∃ x r, i = .store x r) ∨ (∃ r, i = .push r) ∨ ∃ x, i = .call x) → exec i s = .next t →
    (∀ x r, i = .store x r → t.mem.read k = Cell.byte (s.reg r)) ∧
    (∀ r, i = .push r → t.mem.read k = Cell.byte (s.reg r)) ∧
    (∀ x, i = .call x → t.mem.read k = Cell.byte (s.pc + 1))) ∧
  (∀ (c : Config) (inp : Inputs) (s t : State) (a : Nat), Memory.wf s.mem → tick c inp s = .next t →
    (t.mem.read a).tag = true → t.mem.read a ≠ s.mem.read a → a < 16 ∧ ∃ ws, inp.cmd = .load ws)

/-! ## Diagnostics -/

/-- OutOfBounds, rule R264 whole: its causes and no others; in particular not fetch, not a jump, not ALLOC, not an unknown or
malformed word. -/
def Obligations.OutOfBoundsHasExactlyItsCauses : Prop :=
  ∀ s : State, s.Inv →
    (∀ (d : Decoded) (t : State), runDecoded d s = .next t →
      (t.diag = Diag.outOfBounds.code ↔ outOfBoundsCause d s)) ∧
    (s.inProgram = true → s.pc.toNat < s.n.toNat)

/-- LoopStackUnderflow is raised by ENDFOR when LS is empty and by nothing else (R267). That the step then commits `pc + 1`, the
diagnostic and nothing else is R201's and R262's reading of the source's "no-op": C5 and decision D12 of the spec, log
entry 13. -/
def Obligations.LoopStackUnderflowIsEndForsAlone : Prop :=
  ∀ (d : Decoded) (s t : State), runDecoded d s = .next t →
    (t.diag = Diag.loopStackUnderflow.code ↔ d = .valid .endFor ∧ s.ls = []) ∧
    (t.diag = Diag.loopStackUnderflow.code → t = raised .loopStackUnderflow s)

/-- Raising any diagnostic drops every write: only pc, DIAG and DIAGLOG change (R262, R270; for OutOfBounds and
MalformedOperand this is D12). -/
def Obligations.DiagnosticDropsEveryWrite : Prop :=
  ∀ (d : Decoded) (s t : State), runDecoded d s = .next t → t.diag ≠ 0 → ∃ e : Diag, t = raised e s

/-- DIAG describes the last step only and DIAGLOG is sticky: a step never clears a bit of DIAGLOG and sets the bit of the
diagnostic it raised, and no other (R263; D15). -/
def Obligations.DiagLogIsSticky : Prop :=
  ∀ (d : Decoded) (s t : State), runDecoded d s = .next t →
    (t.diag = 0 ∧ t.diagLog = s.diagLog) ∨
    ∃ e : Diag, t.diag = e.code ∧ ∀ k, k < 4 → t.diagLog.getLsbD k = (s.diagLog.getLsbD k || e.logBit.getLsbD k)

/-! ## Whole-machine rules -/

/-- The written-by column of R22's table, with R36 for ALUOUT: an item changes only under the instructions named there
(D4 closes the set of operands; R36's keeping rule is D26). -/
def Obligations.OnlyNamedInstructionsWrite : Prop :=
  ∀ (i : Instr) (s t : State), exec i s = .next t →
    (t.sp ≠ s.sp → (∃ r, i = .push r) ∨ (∃ r, i = .pop r) ∨ (∃ a, i = .call a) ∨ i = .ret) ∧
    (t.hp ≠ s.hp → ∃ r n, i = .alloc r n) ∧
    (t.ls ≠ s.ls → (∃ r n, i = .forLoop r n) ∨ i = .endFor) ∧
    (t.mem ≠ s.mem → (∃ a r, i = .store a r) ∨ (∃ r, i = .push r) ∨ ∃ a, i = .call a) ∧
    (t.aluOut ≠ s.aluOut → (∃ d r, i = .add d r) ∨ (∃ d r, i = .sub d r) ∨ (∃ d r, i = .and d r) ∨
      (∃ d r, i = .or d r) ∨ ∃ d r, i = .xor d r) ∧
    (t.zf ≠ s.zf → ∃ a b, i = .cmp a b) ∧
    (∀ r, t.reg r ≠ s.reg r → (∃ a, i = .load r a) ∨ (∃ x, i = .add r x) ∨ (∃ x, i = .sub r x) ∨ (∃ x, i = .and r x) ∨
      (∃ x, i = .or r x) ∨ (∃ x, i = .xor r x) ∨ (∃ v, i = .mov r v) ∨ i = .pop r ∨ (∃ n, i = .alloc r n) ∨
      (∃ n, i = .forLoop r n) ∨ (i = .endFor ∧ ∃ f rest, s.ls = f :: rest ∧ f.reg = r)) ∧
    HostStateKept s t

/-- Display and sequencer state never feeds back: two idle states that agree on the architectural state step to states that
agree on it, and raise the same diagnostic unless they are halted (R20, R33, R36, R41). -/
def Obligations.DisplayNeverFeedsBack : Prop :=
  ∀ s u t : State, s.stage = .idle → u.stage = .idle → arch s = arch u → step s = .next t →
    ∃ v, step u = .next v ∧ arch v = arch t ∧ (s.inProgram = true → v.diag = t.diag ∧ v.ir = t.ir)

/-! ## Sequencer and run control -/

/-- The stable snapshot, rule R223: from the grant to the commit no tick writes architectural state, and commands in a busy
stage are ignored, `stop` touching RUN only. -/
def Obligations.SnapshotIsStable : Prop :=
  ∀ (c : Config) (inp : Inputs) (s t : State), inp.rst = false → tick c inp s = .next t →
    (s.stage = .fetch ∨ s.stage = .decode ∨ (∃ d, s.stage = .execute d) → arch t = arch s) ∧
    (s.stage = .idle → t.stage = .fetch → arch t = arch s) ∧
    (s.stage ≠ .idle → ∀ cmd, tick c { inp with cmd := cmd } s = .next t) ∧
    (s.stage ≠ .idle → ∃ u, tick c { inp with stop := false } s = .next u ∧ t = { u with run := t.run })

/-- Five ticks are one step: a `step` granted in Idle, then any four ticks without `rst`, reach the state of `step`, RUN
cleared if `stop` came at any of the five; no RUN_INTERVAL matters (R224, derived by the spec from R216 to R223). `step`
takes ENDFOR_ZERO_WRAPS from R5's table, so c has the same value. That IDLECNT is as before the commanded grant is R243 as it
is written, against R236's sentence: log entry 9. -/
def Obligations.FiveTicksAreOneStep : Prop :=
  ∀ (c : Config) (s t : State) (i0 i1 i2 i3 i4 : Inputs),
    c.endForZeroWraps = Config.hardware.endForZeroWraps →
    s.stage = .idle → s.inProgram = true → i0.cmd = .step →
    (∀ i ∈ [i0, i1, i2, i3, i4], i.rst = false) → step s = .next t →
    ticks c [i0, i1, i2, i3, i4] s = .next { t with run := s.run && [i0, i1, i2, i3, i4].all fun i => !i.stop }

/-- Cadence: in continuous run, after the Idle ticks that RUN_INTERVAL still asks for, the next five ticks are one step, for
every value of RUN_INTERVAL (R236, derived by the spec from R216 and R224; D22). -/
def Obligations.CadenceChangesNothing : Prop :=
  ∀ (c : Config) (s t : State), c.endForZeroWraps = Config.hardware.endForZeroWraps →
    s.stage = .idle → s.inProgram = true → s.run = true → step s = .next t →
    ticks c (List.replicate (c.runInterval - s.idleCnt + 5) Inputs.quiet) s = .next { t with idleCnt := 0 }

/-- RUN is cleared by `stop` in every stage, by a halted Idle tick, and by `resize`, `load` and reset; clearing it disturbs
nothing else of a step in flight, and a `stop` in Idle of a running CORE with no command starts no step (R235, R242, R243; D20). -/
def Obligations.RunIsClearedAsStated : Prop :=
  (∀ (c : Config) (inp : Inputs) (s t : State), tick c inp s = .next t →
    (inp.stop = true → t.run = false) ∧
    (s.halted = true → t.run = false) ∧
    (s.stage = .idle → (∃ ws, inp.cmd = .load ws) ∨ (∃ n, inp.cmd = .resize n ∧ 16 ≤ n.toNat ∧ n.toNat ≤ 256) →
      t.run = false) ∧
    (inp.rst = true → t.run = false)) ∧
  (∀ (c : Config) (cmd : Command) (s u : State), s.stage ≠ .idle →
    tick c { rst := false, cmd := cmd, stop := false } s = .next u →
    tick c { rst := false, cmd := cmd, stop := true } s = .next { u with run := false }) ∧
  (∀ (c : Config) (s : State), s.stage = .idle →
    tick c { rst := false, cmd := .nop, stop := true } s = .next { s with run := false })

/-- RUN is set only by the `run` command in Idle, with `stop` low and `pc < IC`, which also grants the first step at once
(R232, R234; D20). -/
def Obligations.RunIsSetOnlyByRun : Prop :=
  (∀ (c : Config) (inp : Inputs) (s t : State), tick c inp s = .next t → t.run = true → s.run = false →
    inp.cmd = .run ∧ inp.stop = false ∧ inp.rst = false ∧ s.stage = .idle ∧ s.pc.toNat < s.ic.toNat ∧
      t.stage = .fetch ∧ t.idleCnt = 0) ∧
  ∀ (c : Config) (s : State), s.stage = .idle → s.pc.toNat < s.ic.toNat →
    tick c { rst := false, cmd := .run, stop := false } s = .next { s with run := true, idleCnt := 0, stage := .fetch }

/-- The observation port and the outputs: any cell below N with all 17 bits, 0 at or above N; the five stage codes; every
register as it stands; the depth of the loop stack; `halted` (R32, R41, R78, R241; the forms are D15, D19, D20, D26). -/
def Obligations.OutputsShowTheState : Prop :=
  ∀ (s : State) (a : Byte),
    (a.toNat < s.n.toNat →
      (s.outputs a).obsCell.toNat =
        (if (s.mem.read a.toNat).tag then 65536 else 0) + (s.mem.read a.toNat).payload.toNat) ∧
    (s.n.toNat ≤ a.toNat → (s.outputs a).obsCell = 0) ∧
    ((s.outputs a).stage = 0 ↔ s.stage = .idle) ∧ ((s.outputs a).stage = 1 ↔ s.stage = .fetch) ∧
    ((s.outputs a).stage = 2 ↔ s.stage = .decode) ∧ ((s.outputs a).stage = 3 ↔ ∃ d, s.stage = .execute d) ∧
    ((s.outputs a).stage = 4 ↔ ∃ d p, s.stage = .writeBack d p) ∧
    (s.outputs a).ir.toNat = (if s.ir.tag then 65536 else 0) + s.ir.payload.toNat ∧
    (s.outputs a).aluOut.toNat = (if s.aluOut.valid then 256 else 0) + s.aluOut.value.toNat ∧
    (s.outputs a).r1 = s.reg .r1 ∧ (s.outputs a).r2 = s.reg .r2 ∧ (s.outputs a).pc = s.pc ∧ (s.outputs a).zf = s.zf ∧
    (s.outputs a).sp.toInt = s.sp.toInt ∧ (s.outputs a).hp = s.hp ∧ (s.outputs a).lsDepth = s.ls.length ∧
    (s.outputs a).ic = s.ic ∧ (s.outputs a).n = s.n ∧ (s.outputs a).diag = s.diag ∧
    (s.outputs a).diagLog = s.diagLog ∧ (s.outputs a).run = s.run ∧
    ((s.outputs a).halted = true ↔ s.stage = .idle ∧ s.ic.toNat ≤ s.pc.toNat)

/-- The command signals: 1 `resize`, 2 `load` of at most 16 words, 3 `step`, 4 `run`, every other code none (R241; D20). -/
def Obligations.PinsCarryTheCommand : Prop :=
  ∀ p : Pins, p.inputs.rst = p.rst ∧ p.inputs.stop = p.stop ∧
    (p.cmd = 1 → p.inputs.cmd = .resize p.cmdSize) ∧
    (p.cmd = 2 → ∃ ws, p.inputs.cmd = .load ws ∧ ws.length = min 16 p.cmdCount.toNat ∧
      ∀ k, k < ws.length → ws[k]? = p.cmdWords[k]?) ∧
    (p.cmd = 3 → p.inputs.cmd = .step) ∧ (p.cmd = 4 → p.inputs.cmd = .run) ∧
    (p.cmd = 0 ∨ 5 ≤ p.cmd.toNat → p.inputs.cmd = .nop)

/-! ## Invariants -/

/-- The resetting events meet the invariants of R43, HP's lower bound among them with no ALLOC wrapped yet: power-on reset, a
legal `resize`, and a `load` into any state that keeps them. -/
def Obligations.ResetMeetsTheInvariants : Prop :=
  (State.reset.Inv ∧ State.reset.heapFloor false) ∧
  (∀ n : BitVec 9, 16 ≤ n.toNat → n.toNat ≤ 256 → (State.resize n).Inv ∧ (State.resize n).heapFloor false) ∧
  ∀ (s : State) (ws : List Word), s.Inv → (s.load ws).Inv ∧ (s.load ws).heapFloor false

/-- Every step keeps the invariants of R43 and the canonical form of memory, from every state that has them; and `16 ≤ HP` as
long as no ALLOC wraps, which is said by what the step executes (R43, derived by the spec; R26). -/
def Obligations.StepKeepsTheInvariants : Prop :=
  ∀ s t : State, s.Inv → step s = .next t →
    t.Inv ∧ ∀ wrapped, s.heapFloor wrapped → t.heapFloor (wrapped || s.stepWraps)

/-- Every tick keeps them too, under every configuration and every host command, and never stops; HP can fall below 16 only at
the commit of an ALLOC that wraps, and a resetting event starts anew (R43, R243). -/
def Obligations.TickKeepsTheInvariants : Prop :=
  ∀ (c : Config) (inp : Inputs) (s : State), s.Inv →
    ∃ t, tick c inp s = .next t ∧ t.Inv ∧
      (∀ wrapped, s.heapFloor wrapped → t.heapFloor (wrapped || s.tickWraps)) ∧
      (inp.rst = true ∨ (s.stage = .idle ∧
        ((∃ ws, inp.cmd = .load ws) ∨ ∃ n, inp.cmd = .resize n ∧ 16 ≤ n.toNat ∧ n.toNat ≤ 256)) → t.heapFloor false)

/-! ## The text form -/

/-- Assembling an instruction's printed text gives its word (R111, R112, derived by the spec; D2, D6, D7). -/
def Obligations.PrintedTextAssemblesBack : Prop := ∀ i : Instr, asmLine (instrText i) = .word (encode i)

/-- Assembling a text: when each of its first sixteen non-empty lines assembles, the words in order, so as many as there are
such lines; when one of them is refused, nothing; lines beyond the sixteenth are neither assembled nor checked (R105, R111;
refusing is D6). -/
def Obligations.AssemblyTruncatesAtSixteen : Prop :=
  (∀ (text : List Char) (ws : List Word), ((linesOf text).take 16).map asmTokens = ws.map AsmResult.word →
    assemble text = some ws) ∧
  (∀ text : List Char, (∃ l ∈ (linesOf text).take 16, asmTokens l = .refused) → assemble text = none) ∧
  (∀ (text : List Char) (ws : List Word), assemble text = some ws → ws.length = min 16 (linesOf text).length) ∧
  ∀ a b : List Char, (linesOf a).take 16 = (linesOf b).take 16 → assemble a = assemble b

/-- The canonical bad words: an unknown mnemonic assembles to 0x0000, which decodes to unknown; a known mnemonic with a
non-numeric token (first character no digit and no sign) in its number position and no refused operand assembles to
`(op << 11) | 0x07FF`, whatever tokens follow, and such a word is malformed for every opcode (R102, R106, R107, R109, R111; D3,
D6, D13, D27). -/
def Obligations.BadLinesAssembleToRejectedWords : Prop :=
  (∀ (m : List Char) (ops : List (List Char)), (∀ r ∈ mnemonicRows, r.1 ≠ m) →
    asmTokens (m :: ops) = .word 0x0000#16) ∧
  decode (Cell.instr 0x0000#16) = .unknown ∧
  (∀ (ch : Char) (cs : List Char) (r : Reg) (more : List (List Char)),
    (ch.toNat < 48 ∨ 57 < ch.toNat) → ch ≠ '+' → ch ≠ '-' →
    asmTokens ("LOAD".toList :: Reg.text r :: (ch :: cs) :: more) = .word (BitVec.ofNat 16 (1 <<< 11 ||| 0x07FF)) ∧
    asmTokens ("STORE".toList :: (ch :: cs) :: Reg.text r :: more) = .word (BitVec.ofNat 16 (2 <<< 11 ||| 0x07FF)) ∧
    asmTokens ("JE".toList :: (ch :: cs) :: more) = .word (BitVec.ofNat 16 (10 <<< 11 ||| 0x07FF)) ∧
    asmTokens ("JNE".toList :: (ch :: cs) :: more) = .word (BitVec.ofNat 16 (11 <<< 11 ||| 0x07FF)) ∧
    asmTokens ("CALL".toList :: (ch :: cs) :: more) = .word (BitVec.ofNat 16 (14 <<< 11 ||| 0x07FF)) ∧
    asmTokens ("ALLOC".toList :: Reg.text r :: (ch :: cs) :: more) = .word (BitVec.ofNat 16 (16 <<< 11 ||| 0x07FF)) ∧
    asmTokens ("FOR".toList :: Reg.text r :: (ch :: cs) :: more) = .word (BitVec.ofNat 16 (17 <<< 11 ||| 0x07FF))) ∧
  ∀ op, 1 ≤ op → op ≤ 18 → decode (Cell.instr (BitVec.ofNat 16 (op <<< 11 ||| 0x07FF))) = .malformed
end

