-- ==== Sys2Proof/Laws/Memory.lean ====
section
/-! SUPPORT. Laws/Memory.lean: what the memory operations do, once each: a read after a write, and that every operation keeps
the canonical form. -/

namespace Sys2Proof.Machine

@[simp] theorem cell_byte_tag (v : Byte) : (Cell.byte v).tag = false := rfl
@[simp] theorem cell_instr_tag (w : Word) : (Cell.instr w).tag = true := rfl
@[simp] theorem cell_instr_payload (w : Word) : (Cell.instr w).payload = w := rfl

/-- A data cell gives its byte back (R61). -/
@[simp] theorem cell_byte_data (v : Byte) : (Cell.byte v).data = v := by
  apply BitVec.eq_of_getLsbD_eq
  intro i hi
  simp only [Cell.data, Cell.byte, BitVec.getLsbD_extractLsb', BitVec.getLsbD_setWidth, Nat.zero_add]
  have h16 : i < 16 := by omega
  simp [hi, h16]

/-- The cells the CORE writes keep R61's form. -/
@[simp] theorem cell_byte_wf (v : Byte) : (Cell.byte v).wf = true := by
  have h : (Cell.byte v).payload.extractLsb' 8 8 = 0#8 := by
    apply BitVec.eq_of_getLsbD_eq
    intro i hi
    simp only [Cell.byte, BitVec.getLsbD_extractLsb', BitVec.getLsbD_setWidth]
    simp
  simp [Cell.wf, h]

@[simp] theorem cell_instr_wf (w : Word) : (Cell.instr w).wf = true := rfl

@[simp] theorem Memory.read_nil (a : Nat) : Memory.read [] a = Memory.unlisted := rfl

theorem Memory.wf_nil : Memory.wf [] := by simp [Memory.wf]

theorem Memory.wf_tail {e : Nat × Cell} {m : Memory} (h : Memory.wf (e :: m)) : Memory.wf m :=
  ⟨(List.pairwise_cons.mp h.1).2, fun x hx => h.2 x (List.mem_cons_of_mem e hx)⟩

/-- Below every listed address nothing is listed. -/
theorem Memory.read_below {m : Memory} {a : Nat} (h : ∀ e ∈ m, a < e.1) : m.read a = Memory.unlisted := by
  induction m with
  | nil => rfl
  | cons e m ih =>
    obtain ⟨b, d⟩ := e
    have hb : a < b := h (b, d) List.mem_cons_self
    have hne : a ≠ b := by omega
    simpa [Memory.read, hne] using ih fun x hx => h x (List.mem_cons_of_mem _ hx)

theorem Memory.read_consCell {m : Memory} {a : Nat} (c : Cell) (h : ∀ e ∈ m, a < e.1) (b : Nat) :
    (Memory.consCell a c m).read b = if b = a then c else m.read b := by
  unfold Memory.consCell
  by_cases hc : c = Memory.unlisted
  · by_cases hb : b = a
    · simp [hc, hb, Memory.read_below h]
    · simp [hc, hb]
  · by_cases hb : b = a <;> simp [hc, hb, Memory.read]

theorem Memory.mem_consCell {a : Nat} {c : Cell} {m : Memory} {e : Nat × Cell} (h : e ∈ Memory.consCell a c m) :
    (e = (a, c) ∧ c ≠ Memory.unlisted) ∨ e ∈ m := by
  unfold Memory.consCell at h
  split at h
  · exact .inr h
  · rename_i hc
    exact (List.mem_cons.mp h).imp (fun he => ⟨he, hc⟩) id

/-- Every entry after a write is the one written or was there before at another address. -/
theorem Memory.mem_write {m : Memory} {a : Nat} {c : Cell} {e : Nat × Cell} (hw : Memory.wf m)
    (h : e ∈ m.write a c) : (e = (a, c) ∧ c ≠ Memory.unlisted) ∨ (e ∈ m ∧ e.1 ≠ a) := by
  induction m with
  | nil => exact (Memory.mem_consCell h).imp id (fun h => absurd h (List.not_mem_nil))
  | cons x m ih =>
    obtain ⟨b, d⟩ := x
    have hb : ∀ y ∈ m, b < y.1 := (List.pairwise_cons.mp hw.1).1
    unfold Memory.write at h
    split at h
    · rename_i hab
      refine (Memory.mem_consCell h).imp id fun hm => ⟨hm, ?_⟩
      rcases List.mem_cons.mp hm with rfl | hm
      · simp only; omega
      · have := hb e hm; omega
    · split at h
      · rename_i _ hab
        refine (Memory.mem_consCell h).imp id fun hm => ⟨List.mem_cons_of_mem _ hm, ?_⟩
        have := hb e hm; omega
      · rename_i _ hab
        rcases List.mem_cons.mp h with rfl | hm
        · exact .inr ⟨List.mem_cons_self, fun h => hab h.symm⟩
        · exact (ih (Memory.wf_tail hw) hm).imp id fun ⟨hm, hne⟩ => ⟨List.mem_cons_of_mem _ hm, hne⟩

theorem Memory.wf_consCell {m : Memory} {a : Nat} (c : Cell) (hw : Memory.wf m) (h : ∀ e ∈ m, a < e.1) :
    Memory.wf (Memory.consCell a c m) := by
  unfold Memory.consCell
  split
  · exact hw
  · rename_i hc
    exact ⟨List.pairwise_cons.mpr ⟨h, hw.1⟩, fun e he => (List.mem_cons.mp he).elim (fun h => h ▸ hc) (hw.2 e)⟩

/-- A write keeps the canonical form. -/
theorem Memory.wf_write {m : Memory} (a : Nat) (c : Cell) (hw : Memory.wf m) : Memory.wf (m.write a c) := by
  induction m with
  | nil => exact Memory.wf_consCell c hw (fun e he => absurd he (List.not_mem_nil))
  | cons x m ih =>
    obtain ⟨b, d⟩ := x
    have hb : ∀ y ∈ m, b < y.1 := (List.pairwise_cons.mp hw.1).1
    have hm := Memory.wf_tail hw
    unfold Memory.write
    split
    · rename_i hab
      exact Memory.wf_consCell c hw fun e he =>
        (List.mem_cons.mp he).elim (fun h => h ▸ hab) (fun h => Nat.lt_trans hab (hb e h))
    · split
      · rename_i _ hab
        exact Memory.wf_consCell c hm fun e he => hab ▸ hb e he
      · rename_i hlt hne
        refine ⟨List.pairwise_cons.mpr ⟨fun e he => ?_, (ih hm).1⟩, fun e he => ?_⟩
        · rcases Memory.mem_write hm he with ⟨rfl, -⟩ | ⟨he, -⟩
          · simp only; omega
          · exact hb e he
        · exact (List.mem_cons.mp he).elim (fun h => h ▸ hw.2 (b, d) List.mem_cons_self) ((ih hm).2 e)

/-- A read after a write: the cell written at its address, everything else as before. -/
theorem Memory.read_write {m : Memory} (a : Nat) (c : Cell) (hw : Memory.wf m) (b : Nat) :
    (m.write a c).read b = if b = a then c else m.read b := by
  induction m with
  | nil => exact Memory.read_consCell c (fun e he => absurd he (List.not_mem_nil)) b
  | cons x m ih =>
    obtain ⟨k, d⟩ := x
    have hk : ∀ y ∈ m, k < y.1 := (List.pairwise_cons.mp hw.1).1
    unfold Memory.write
    split
    · rename_i hak
      exact Memory.read_consCell c (fun e he =>
        (List.mem_cons.mp he).elim (fun h => h ▸ hak) (fun h => Nat.lt_trans hak (hk e h))) b
    · split
      · rename_i _ hak
        subst hak
        rw [Memory.read_consCell c hk]
        by_cases hb : b = a <;> simp [hb, Memory.read]
      · rename_i _ hak
        simp only [Memory.read, ih (Memory.wf_tail hw)]
        by_cases hb : b = k
        · subst hb; simp [Ne.symm hak]
        · simp [hb]

theorem Memory.wf_writeWords {m : Memory} (a : Nat) (ws : List Word) (hw : Memory.wf m) :
    Memory.wf (m.writeWords a ws) := by
  induction ws generalizing m a with
  | nil => exact hw
  | cons w ws ih => exact ih (a + 1) (Memory.wf_write a (Cell.instr w) hw)

/-- The load port: word i at address `a + i`, every other cell as before (R79). -/
theorem Memory.read_writeWords {m : Memory} (a : Nat) (ws : List Word) (hw : Memory.wf m) (b : Nat) :
    (m.writeWords a ws).read b =
      if h : a ≤ b ∧ b - a < ws.length then Cell.instr (ws[b - a]'h.2) else m.read b := by
  induction ws generalizing m a with
  | nil => simp [Memory.writeWords]
  | cons w ws ih =>
    rw [Memory.writeWords, ih (a + 1) (Memory.wf_write a (Cell.instr w) hw), Memory.read_write a _ hw]
    by_cases hba : b = a
    · subst hba; simp
    · by_cases hlt : a + 1 ≤ b
      · obtain ⟨k, rfl⟩ : ∃ k, b = a + 1 + k := ⟨b - (a + 1), by omega⟩
        have h1 : a + 1 + k - a = k + 1 := by omega
        have h2 : a + 1 + k - (a + 1) = k := by omega
        simp only [h1, h2, List.length_cons, List.getElem_cons_succ, hba, if_false, Nat.add_lt_add_iff_right]
        by_cases hk : k < ws.length
        · rw [dif_pos ⟨by omega, hk⟩, dif_pos ⟨by omega, hk⟩]
        · rw [dif_neg (fun h => hk h.2), dif_neg (fun h => hk h.2)]
      · rw [dif_neg (fun h => hlt h.1), dif_neg (fun h => by omega), if_neg hba]

/-- Every entry after the load port's writes is one of the words, inside the range written, or was there before. -/
theorem Memory.mem_writeWords {m : Memory} (a : Nat) (ws : List Word) (hw : Memory.wf m) {e : Nat × Cell}
    (h : e ∈ m.writeWords a ws) :
    (e.1 < a + ws.length ∧ e.2.tag = true) ∨ e ∈ m := by
  induction ws generalizing m a with
  | nil => exact .inr h
  | cons w ws ih =>
    rcases ih (a + 1) (Memory.wf_write a (Cell.instr w) hw) h with h | h
    · left; simp only [List.length_cons]; exact ⟨by omega, h.2⟩
    · rcases Memory.mem_write hw h with ⟨rfl, -⟩ | ⟨h, -⟩
      · left; simp [Cell.instr]
      · exact .inr h

theorem Memory.wf_memAfter {m : Memory} (o : Option (Nat × Byte)) (hw : Memory.wf m) : Memory.wf (memAfter m o) := by
  rcases o with _ | ⟨a, v⟩
  · exact hw
  · exact Memory.wf_write a (Cell.byte v) hw

end Sys2Proof.Machine
end

