-- ==== Sys2Proof/Laws/State.lean ====
section
/-! SUPPORT. Laws/State.lean: one lemma per field for each state update and each shared proposal, so that no proof unfolds a
record update. -/

namespace Sys2Proof.Machine

@[simp] theorem State.latchAlu_mem (s : State) (p : Proposal) : (s.latchAlu p).mem = s.mem := rfl
@[simp] theorem State.latchAlu_r1 (s : State) (p : Proposal) : (s.latchAlu p).r1 = s.r1 := rfl
@[simp] theorem State.latchAlu_r2 (s : State) (p : Proposal) : (s.latchAlu p).r2 = s.r2 := rfl
@[simp] theorem State.latchAlu_zf (s : State) (p : Proposal) : (s.latchAlu p).zf = s.zf := rfl
@[simp] theorem State.latchAlu_pc (s : State) (p : Proposal) : (s.latchAlu p).pc = s.pc := rfl
@[simp] theorem State.latchAlu_sp (s : State) (p : Proposal) : (s.latchAlu p).sp = s.sp := rfl
@[simp] theorem State.latchAlu_hp (s : State) (p : Proposal) : (s.latchAlu p).hp = s.hp := rfl
@[simp] theorem State.latchAlu_ls (s : State) (p : Proposal) : (s.latchAlu p).ls = s.ls := rfl
@[simp] theorem State.latchAlu_ic (s : State) (p : Proposal) : (s.latchAlu p).ic = s.ic := rfl
@[simp] theorem State.latchAlu_n (s : State) (p : Proposal) : (s.latchAlu p).n = s.n := rfl
@[simp] theorem State.latchAlu_stage (s : State) (p : Proposal) : (s.latchAlu p).stage = s.stage := rfl
@[simp] theorem State.latchAlu_ir (s : State) (p : Proposal) : (s.latchAlu p).ir = s.ir := rfl
@[simp] theorem State.latchAlu_aluOut (s : State) (p : Proposal) : (s.latchAlu p).aluOut = aluAfter s.aluOut p.alu := rfl
@[simp] theorem State.latchAlu_diag (s : State) (p : Proposal) : (s.latchAlu p).diag = s.diag := rfl
@[simp] theorem State.latchAlu_diagLog (s : State) (p : Proposal) : (s.latchAlu p).diagLog = s.diagLog := rfl
@[simp] theorem State.latchAlu_run (s : State) (p : Proposal) : (s.latchAlu p).run = s.run := rfl
@[simp] theorem State.latchAlu_idleCnt (s : State) (p : Proposal) : (s.latchAlu p).idleCnt = s.idleCnt := rfl

@[simp] theorem State.commit_mem (s : State) (p : Proposal) : (s.commit p).mem = memAfter s.mem p.cell := rfl
@[simp] theorem State.commit_r1 (s : State) (p : Proposal) : (s.commit p).r1 = regAfter .r1 s.r1 p.reg := rfl
@[simp] theorem State.commit_r2 (s : State) (p : Proposal) : (s.commit p).r2 = regAfter .r2 s.r2 p.reg := rfl
@[simp] theorem State.commit_zf (s : State) (p : Proposal) : (s.commit p).zf = p.zf.getD s.zf := rfl
@[simp] theorem State.commit_pc (s : State) (p : Proposal) : (s.commit p).pc = p.pc := rfl
@[simp] theorem State.commit_sp (s : State) (p : Proposal) : (s.commit p).sp = p.sp.getD s.sp := rfl
@[simp] theorem State.commit_hp (s : State) (p : Proposal) : (s.commit p).hp = p.hp.getD s.hp := rfl
@[simp] theorem State.commit_ls (s : State) (p : Proposal) : (s.commit p).ls = loopAfter s.ls p.loop := rfl
@[simp] theorem State.commit_ic (s : State) (p : Proposal) : (s.commit p).ic = s.ic := rfl
@[simp] theorem State.commit_n (s : State) (p : Proposal) : (s.commit p).n = s.n := rfl
@[simp] theorem State.commit_stage (s : State) (p : Proposal) : (s.commit p).stage = .idle := rfl
@[simp] theorem State.commit_ir (s : State) (p : Proposal) : (s.commit p).ir = s.ir := rfl
@[simp] theorem State.commit_aluOut (s : State) (p : Proposal) : (s.commit p).aluOut = s.aluOut := rfl
@[simp] theorem State.commit_diag (s : State) (p : Proposal) : (s.commit p).diag = diagCode p.diag := rfl
@[simp] theorem State.commit_diagLog (s : State) (p : Proposal) : (s.commit p).diagLog = s.diagLog ||| diagLogBits p.diag := rfl
@[simp] theorem State.commit_run (s : State) (p : Proposal) : (s.commit p).run = s.run := rfl
@[simp] theorem State.commit_idleCnt (s : State) (p : Proposal) : (s.commit p).idleCnt = s.idleCnt := rfl

@[simp] theorem State.retire_mem (s : State) (p : Proposal) : (s.retire p).mem = memAfter s.mem p.cell := rfl
@[simp] theorem State.retire_r1 (s : State) (p : Proposal) : (s.retire p).r1 = regAfter .r1 s.r1 p.reg := rfl
@[simp] theorem State.retire_r2 (s : State) (p : Proposal) : (s.retire p).r2 = regAfter .r2 s.r2 p.reg := rfl
@[simp] theorem State.retire_zf (s : State) (p : Proposal) : (s.retire p).zf = p.zf.getD s.zf := rfl
@[simp] theorem State.retire_pc (s : State) (p : Proposal) : (s.retire p).pc = p.pc := rfl
@[simp] theorem State.retire_sp (s : State) (p : Proposal) : (s.retire p).sp = p.sp.getD s.sp := rfl
@[simp] theorem State.retire_hp (s : State) (p : Proposal) : (s.retire p).hp = p.hp.getD s.hp := rfl
@[simp] theorem State.retire_ls (s : State) (p : Proposal) : (s.retire p).ls = loopAfter s.ls p.loop := rfl
@[simp] theorem State.retire_ic (s : State) (p : Proposal) : (s.retire p).ic = s.ic := rfl
@[simp] theorem State.retire_n (s : State) (p : Proposal) : (s.retire p).n = s.n := rfl
@[simp] theorem State.retire_stage (s : State) (p : Proposal) : (s.retire p).stage = .idle := rfl
@[simp] theorem State.retire_ir (s : State) (p : Proposal) : (s.retire p).ir = s.ir := rfl
@[simp] theorem State.retire_aluOut (s : State) (p : Proposal) : (s.retire p).aluOut = aluAfter s.aluOut p.alu := rfl
@[simp] theorem State.retire_diag (s : State) (p : Proposal) : (s.retire p).diag = diagCode p.diag := rfl
@[simp] theorem State.retire_diagLog (s : State) (p : Proposal) : (s.retire p).diagLog = s.diagLog ||| diagLogBits p.diag := rfl
@[simp] theorem State.retire_run (s : State) (p : Proposal) : (s.retire p).run = s.run := rfl
@[simp] theorem State.retire_idleCnt (s : State) (p : Proposal) : (s.retire p).idleCnt = s.idleCnt := rfl

@[simp] theorem State.haltedTick_mem (s : State) : (s.haltedTick).mem = s.mem := rfl
@[simp] theorem State.haltedTick_r1 (s : State) : (s.haltedTick).r1 = s.r1 := rfl
@[simp] theorem State.haltedTick_r2 (s : State) : (s.haltedTick).r2 = s.r2 := rfl
@[simp] theorem State.haltedTick_zf (s : State) : (s.haltedTick).zf = s.zf := rfl
@[simp] theorem State.haltedTick_pc (s : State) : (s.haltedTick).pc = s.pc := rfl
@[simp] theorem State.haltedTick_sp (s : State) : (s.haltedTick).sp = s.sp := rfl
@[simp] theorem State.haltedTick_hp (s : State) : (s.haltedTick).hp = s.hp := rfl
@[simp] theorem State.haltedTick_ls (s : State) : (s.haltedTick).ls = s.ls := rfl
@[simp] theorem State.haltedTick_ic (s : State) : (s.haltedTick).ic = s.ic := rfl
@[simp] theorem State.haltedTick_n (s : State) : (s.haltedTick).n = s.n := rfl
@[simp] theorem State.haltedTick_stage (s : State) : (s.haltedTick).stage = s.stage := rfl
@[simp] theorem State.haltedTick_ir (s : State) : (s.haltedTick).ir = s.ir := rfl
@[simp] theorem State.haltedTick_aluOut (s : State) : (s.haltedTick).aluOut = s.aluOut := rfl
@[simp] theorem State.haltedTick_diag (s : State) : (s.haltedTick).diag = s.diag := rfl
@[simp] theorem State.haltedTick_diagLog (s : State) : (s.haltedTick).diagLog = s.diagLog := rfl
@[simp] theorem State.haltedTick_run (s : State) : (s.haltedTick).run = false := rfl
@[simp] theorem State.haltedTick_idleCnt (s : State) : (s.haltedTick).idleCnt = s.idleCnt := rfl

@[simp] theorem State.stopped_mem (s : State) (b : Bool) : (s.stopped b).mem = s.mem := rfl
@[simp] theorem State.stopped_r1 (s : State) (b : Bool) : (s.stopped b).r1 = s.r1 := rfl
@[simp] theorem State.stopped_r2 (s : State) (b : Bool) : (s.stopped b).r2 = s.r2 := rfl
@[simp] theorem State.stopped_zf (s : State) (b : Bool) : (s.stopped b).zf = s.zf := rfl
@[simp] theorem State.stopped_pc (s : State) (b : Bool) : (s.stopped b).pc = s.pc := rfl
@[simp] theorem State.stopped_sp (s : State) (b : Bool) : (s.stopped b).sp = s.sp := rfl
@[simp] theorem State.stopped_hp (s : State) (b : Bool) : (s.stopped b).hp = s.hp := rfl
@[simp] theorem State.stopped_ls (s : State) (b : Bool) : (s.stopped b).ls = s.ls := rfl
@[simp] theorem State.stopped_ic (s : State) (b : Bool) : (s.stopped b).ic = s.ic := rfl
@[simp] theorem State.stopped_n (s : State) (b : Bool) : (s.stopped b).n = s.n := rfl
@[simp] theorem State.stopped_stage (s : State) (b : Bool) : (s.stopped b).stage = s.stage := rfl
@[simp] theorem State.stopped_ir (s : State) (b : Bool) : (s.stopped b).ir = s.ir := rfl
@[simp] theorem State.stopped_aluOut (s : State) (b : Bool) : (s.stopped b).aluOut = s.aluOut := rfl
@[simp] theorem State.stopped_diag (s : State) (b : Bool) : (s.stopped b).diag = s.diag := rfl
@[simp] theorem State.stopped_diagLog (s : State) (b : Bool) : (s.stopped b).diagLog = s.diagLog := rfl
@[simp] theorem State.stopped_run (s : State) (b : Bool) : (s.stopped b).run = (s.run && !b) := rfl
@[simp] theorem State.stopped_idleCnt (s : State) (b : Bool) : (s.stopped b).idleCnt = s.idleCnt := rfl

@[simp] theorem State.resize_mem (n : BitVec 9) : (State.resize n).mem = [] := rfl
@[simp] theorem State.resize_r1 (n : BitVec 9) : (State.resize n).r1 = 0 := rfl
@[simp] theorem State.resize_r2 (n : BitVec 9) : (State.resize n).r2 = 0 := rfl
@[simp] theorem State.resize_zf (n : BitVec 9) : (State.resize n).zf = false := rfl
@[simp] theorem State.resize_pc (n : BitVec 9) : (State.resize n).pc = 0 := rfl
@[simp] theorem State.resize_sp (n : BitVec 9) : (State.resize n).sp = n - 1 := rfl
@[simp] theorem State.resize_hp (n : BitVec 9) : (State.resize n).hp = heapBase n := rfl
@[simp] theorem State.resize_ls (n : BitVec 9) : (State.resize n).ls = [] := rfl
@[simp] theorem State.resize_ic (n : BitVec 9) : (State.resize n).ic = 0 := rfl
@[simp] theorem State.resize_n (n : BitVec 9) : (State.resize n).n = n := rfl
@[simp] theorem State.resize_stage (n : BitVec 9) : (State.resize n).stage = .idle := rfl
@[simp] theorem State.resize_ir (n : BitVec 9) : (State.resize n).ir = { tag := false, payload := 0 } := rfl
@[simp] theorem State.resize_aluOut (n : BitVec 9) : (State.resize n).aluOut = { valid := false, value := 0 } := rfl
@[simp] theorem State.resize_diag (n : BitVec 9) : (State.resize n).diag = 0 := rfl
@[simp] theorem State.resize_diagLog (n : BitVec 9) : (State.resize n).diagLog = 0 := rfl
@[simp] theorem State.resize_run (n : BitVec 9) : (State.resize n).run = false := rfl
@[simp] theorem State.resize_idleCnt (n : BitVec 9) : (State.resize n).idleCnt = 0 := rfl

@[simp] theorem State.load_mem (s : State) (ws : List Word) : (s.load ws).mem = s.mem.writeWords 0 (ws.take 16) := rfl
@[simp] theorem State.load_r1 (s : State) (ws : List Word) : (s.load ws).r1 = s.r1 := rfl
@[simp] theorem State.load_r2 (s : State) (ws : List Word) : (s.load ws).r2 = s.r2 := rfl
@[simp] theorem State.load_zf (s : State) (ws : List Word) : (s.load ws).zf = s.zf := rfl
@[simp] theorem State.load_pc (s : State) (ws : List Word) : (s.load ws).pc = 0 := rfl
@[simp] theorem State.load_sp (s : State) (ws : List Word) : (s.load ws).sp = s.n - 1 := rfl
@[simp] theorem State.load_hp (s : State) (ws : List Word) : (s.load ws).hp = heapBase s.n := rfl
@[simp] theorem State.load_ls (s : State) (ws : List Word) : (s.load ws).ls = [] := rfl
@[simp] theorem State.load_ic (s : State) (ws : List Word) : (s.load ws).ic = BitVec.ofNat 5 (ws.take 16).length := rfl
@[simp] theorem State.load_n (s : State) (ws : List Word) : (s.load ws).n = s.n := rfl
@[simp] theorem State.load_stage (s : State) (ws : List Word) : (s.load ws).stage = .idle := rfl
@[simp] theorem State.load_ir (s : State) (ws : List Word) : (s.load ws).ir = { tag := false, payload := 0 } := rfl
@[simp] theorem State.load_aluOut (s : State) (ws : List Word) : (s.load ws).aluOut = { valid := false, value := 0 } := rfl
@[simp] theorem State.load_diag (s : State) (ws : List Word) : (s.load ws).diag = 0 := rfl
@[simp] theorem State.load_diagLog (s : State) (ws : List Word) : (s.load ws).diagLog = 0 := rfl
@[simp] theorem State.load_run (s : State) (ws : List Word) : (s.load ws).run = false := rfl
@[simp] theorem State.load_idleCnt (s : State) (ws : List Word) : (s.load ws).idleCnt = 0 := rfl

@[simp] theorem Proposal.advance_pc (pc : Byte) : (Proposal.advance pc).pc = pcNext pc := rfl
@[simp] theorem Proposal.advance_reg (pc : Byte) : (Proposal.advance pc).reg = none := rfl
@[simp] theorem Proposal.advance_zf (pc : Byte) : (Proposal.advance pc).zf = none := rfl
@[simp] theorem Proposal.advance_sp (pc : Byte) : (Proposal.advance pc).sp = none := rfl
@[simp] theorem Proposal.advance_hp (pc : Byte) : (Proposal.advance pc).hp = none := rfl
@[simp] theorem Proposal.advance_cell (pc : Byte) : (Proposal.advance pc).cell = none := rfl
@[simp] theorem Proposal.advance_loop (pc : Byte) : (Proposal.advance pc).loop = none := rfl
@[simp] theorem Proposal.advance_alu (pc : Byte) : (Proposal.advance pc).alu = none := rfl
@[simp] theorem Proposal.advance_diag (pc : Byte) : (Proposal.advance pc).diag = none := rfl
@[simp] theorem Proposal.raise_pc (d : Diag) (pc : Byte) : (Proposal.raise d pc).pc = pcNext pc := rfl
@[simp] theorem Proposal.raise_reg (d : Diag) (pc : Byte) : (Proposal.raise d pc).reg = none := rfl
@[simp] theorem Proposal.raise_zf (d : Diag) (pc : Byte) : (Proposal.raise d pc).zf = none := rfl
@[simp] theorem Proposal.raise_sp (d : Diag) (pc : Byte) : (Proposal.raise d pc).sp = none := rfl
@[simp] theorem Proposal.raise_hp (d : Diag) (pc : Byte) : (Proposal.raise d pc).hp = none := rfl
@[simp] theorem Proposal.raise_cell (d : Diag) (pc : Byte) : (Proposal.raise d pc).cell = none := rfl
@[simp] theorem Proposal.raise_loop (d : Diag) (pc : Byte) : (Proposal.raise d pc).loop = none := rfl
@[simp] theorem Proposal.raise_alu (d : Diag) (pc : Byte) : (Proposal.raise d pc).alu = none := rfl
@[simp] theorem Proposal.raise_diag (d : Diag) (pc : Byte) : (Proposal.raise d pc).diag = some d := rfl

@[simp] theorem regAfter_none (r : Reg) (v : Byte) : regAfter r v none = v := rfl
@[simp] theorem regAfter_some (r d : Reg) (v w : Byte) : regAfter r v (some (d, w)) = if d = r then w else v := rfl
@[simp] theorem memAfter_none (m : Memory) : memAfter m none = m := rfl
@[simp] theorem memAfter_some (m : Memory) (a : Nat) (v : Byte) :
    memAfter m (some (a, v)) = m.write a (Cell.byte v) := rfl
@[simp] theorem loopAfter_none (ls : List LoopFrame) : loopAfter ls none = ls := rfl
@[simp] theorem loopAfter_push (ls : List LoopFrame) (f : LoopFrame) : loopAfter ls (some (.push f)) = f :: ls := rfl
@[simp] theorem loopAfter_pop (ls : List LoopFrame) : loopAfter ls (some .pop) = ls.tail := rfl
@[simp] theorem aluAfter_none (a : AluOut) : aluAfter a none = a := rfl
@[simp] theorem aluAfter_some (a : AluOut) (v : Byte) : aluAfter a (some v) = { valid := true, value := v } := rfl
@[simp] theorem diagCode_none : diagCode none = 0 := rfl
@[simp] theorem diagCode_some (d : Diag) : diagCode (some d) = d.code := rfl
@[simp] theorem diagLogBits_none : diagLogBits none = 0 := rfl
@[simp] theorem diagLogBits_some (d : Diag) : diagLogBits (some d) = d.logBit := rfl
@[simp] theorem attempt_error {α : Type} (d : Diag) (pc : Byte) (k : α → Proposal) :
    attempt (.error d) pc k = Proposal.raise d pc := rfl
@[simp] theorem attempt_ok {α : Type} (v : α) (pc : Byte) (k : α → Proposal) : attempt (.ok v) pc k = k v := rfl

/-- The register an instruction's write shows, read as `x[i]`. -/
theorem State.retire_reg (s : State) (p : Proposal) (r : Reg) : (s.retire p).reg r = regAfter r (s.reg r) p.reg := by
  cases r <;> rfl

end Sys2Proof.Machine
end

