-- ==== Sys2Proof/Laws/Access.lean ====
section
/-! SUPPORT. Laws/Access.lean: what each shared access can answer, once (spec/00_scope.md R7, spec/20_memory.md R65, R66). -/

namespace Sys2Proof.Machine

theorem State.cellRead_ok {s : State} {a : Int} {c : Cell} :
    s.cellRead a = .ok c ↔ (0 ≤ a ∧ a < s.n.toNat) ∧ c = s.mem.read a.toNat := by
  unfold State.cellRead
  split
  · rename_i h
    constructor
    · intro h; cases h
    · intro h; omega
  · rename_i h
    constructor
    · intro h; cases h; exact ⟨by omega, rfl⟩
    · rintro ⟨-, rfl⟩; rfl

theorem State.cellRead_error {s : State} {a : Int} {d : Diag} :
    s.cellRead a = .error d ↔ (a < 0 ∨ (s.n.toNat : Int) ≤ a) ∧ d = .outOfBounds := by
  unfold State.cellRead
  split
  · rename_i h; simp [h, eq_comm]
  · rename_i h; simp [h]

theorem State.writeAddr_ok {s : State} {a : Int} {k : Nat} :
    s.writeAddr a = .ok k ↔ (0 ≤ a ∧ a < s.n.toNat) ∧ k = a.toNat := by
  unfold State.writeAddr
  split
  · rename_i h
    constructor
    · intro h; cases h
    · intro h; omega
  · rename_i h
    constructor
    · intro h; cases h; exact ⟨by omega, rfl⟩
    · rintro ⟨-, rfl⟩; rfl

theorem State.writeAddr_error {s : State} {a : Int} {d : Diag} :
    s.writeAddr a = .error d ↔ (a < 0 ∨ (s.n.toNat : Int) ≤ a) ∧ d = .outOfBounds := by
  unfold State.writeAddr
  split
  · rename_i h; simp [h, eq_comm]
  · rename_i h; simp [h]

theorem State.memRead_ok {s : State} {a : Int} {v : Byte} :
    s.memRead a = .ok v ↔
      (0 ≤ a ∧ a < s.n.toNat) ∧ (s.mem.read a.toNat).tag = false ∧ v = (s.mem.read a.toNat).data := by
  unfold State.memRead
  split
  · rename_i d h
    have := (State.cellRead_error.mp h).1
    constructor
    · intro h; cases h
    · intro h; omega
  · rename_i c h
    obtain ⟨hb, rfl⟩ := State.cellRead_ok.mp h
    cases ht : (s.mem.read a.toNat).tag <;> simp [hb, eq_comm]

/-- The two diagnostics of a data read, with their conditions exclusive: out of bounds first (R269). -/
theorem State.memRead_error {s : State} {a : Int} {d : Diag} :
    s.memRead a = .error d ↔
      ((a < 0 ∨ (s.n.toNat : Int) ≤ a) ∧ d = .outOfBounds) ∨
      ((0 ≤ a ∧ a < s.n.toNat) ∧ (s.mem.read a.toNat).tag = true ∧ d = .malformedOperand) := by
  unfold State.memRead
  split
  · rename_i e h
    obtain ⟨hb, rfl⟩ := State.cellRead_error.mp h
    constructor
    · intro h; cases h; exact .inl ⟨hb, rfl⟩
    · rintro (⟨-, rfl⟩ | ⟨h, -⟩)
      · rfl
      · omega
  · rename_i c h
    obtain ⟨hb, rfl⟩ := State.cellRead_ok.mp h
    have hn : ¬ (a < 0 ∨ (s.n.toNat : Int) ≤ a) := by omega
    cases ht : (s.mem.read a.toNat).tag <;> simp [hb, hn, eq_comm]

/-- Fetch: the cell at pc goes to IR, and nothing else changes; there is none only when pc is outside memory (R219). -/
theorem State.latchIr_eq (s : State) :
    s.latchIr = if s.pc.toNat < s.n.toNat then some { s with ir := s.mem.read s.pc.toNat } else none := by
  unfold State.latchIr
  split
  · rename_i d h
    have := (State.cellRead_error.mp h).1
    rw [if_neg (by omega)]
  · rename_i c h
    obtain ⟨hb, rfl⟩ := State.cellRead_ok.mp h
    rw [if_pos (by omega)]
    rfl

end Sys2Proof.Machine
end

