-- ==== Sys2Proof/Laws/Exec.lean ====
section
/-! SUPPORT. Laws/Exec.lean: every meaning is its outcome retired, and what raising a diagnostic does to the state. -/

namespace Sys2Proof.Machine

/-- `exec` retires the outcome the Execute stage computes at the hardware's parameters (R216, R221, R222). -/
theorem exec_eq (i : Instr) (s : State) : exec i s = .next (s.retire (instrOutcome Config.hardware i s)) := by
  cases i <;> rfl

theorem runDecoded_eq (d : Decoded) (s : State) :
    runDecoded d s = .next (s.retire (decodedOutcome Config.hardware d s)) := by
  rcases d with _ | _ | i
  · rfl
  · rfl
  · exact exec_eq i s

/-- Raising a diagnostic commits `pc + 1`, DIAG and its DIAGLOG bit, and nothing else (R262). -/
theorem State.retire_raise (s : State) (d : Diag) (pc : Byte) :
    s.retire (Proposal.raise d pc) =
      { s with pc := pcNext pc, stage := .idle, diag := d.code, diagLog := s.diagLog ||| d.logBit } := rfl

/-- ENDFOR reads the parameter; no other instruction does. -/
theorem instrOutcome_config (c d : Config) (h : c.endForZeroWraps = d.endForZeroWraps) (i : Instr) (s : State) :
    instrOutcome c i s = instrOutcome d i s := by
  cases i <;> simp [instrOutcome, endForOutcome, loopAgain, h]

theorem decodedOutcome_config (c d : Config) (h : c.endForZeroWraps = d.endForZeroWraps) (x : Decoded) (s : State) :
    decodedOutcome c x s = decodedOutcome d x s := by
  cases x with
  | unknown => rfl
  | malformed => rfl
  | valid i => exact instrOutcome_config c d h i s

end Sys2Proof.Machine
end

