-- ==== Sys2Proof/Laws/Operands.lean ====
section
/-! SUPPORT. Laws/Operands.lean: the integer readings of the pointer and counter arithmetic, and what a push and a pop can
propose (spec/10_state.md R23, R25, R26; spec/44_stack_heap.md R185; spec/45_loops.md R201). -/

namespace Sys2Proof.Machine

theorem pcNext_toNat (pc : Byte) : (pcNext pc).toNat = (pc.toNat + 1) % 256 := BitVec.toNat_add pc 1

theorem counterDown_toInt (v : Byte) : ((counterDown v).toNat : Int) = ((v.toNat : Int) - 1) % 256 := by
  have := v.isLt
  simp only [counterDown, BitVec.toNat_sub]
  simp
  omega

/-- SP as an integer, from its 9 bits (R25). -/
theorem sp_toInt (x : BitVec 9) : x.toInt = if x.toNat < 256 then (x.toNat : Int) else (x.toNat : Int) - 512 := by
  have := x.isLt
  rw [BitVec.toInt_eq_toNat_cond]
  split <;> split <;> omega

theorem sp_sub_one {x : BitVec 9} (h : 0 ≤ x.toInt) : (x - 1).toInt = x.toInt - 1 := by
  have hx := x.isLt
  have e : (x - 1).toNat = (511 + x.toNat) % 512 := by simp [BitVec.toNat_sub]
  rw [sp_toInt] at h
  rw [sp_toInt, sp_toInt, e]
  split at h <;> split <;> omega

theorem sp_add_one {x : BitVec 9} (h : x.toInt < 255) : (x + 1).toInt = x.toInt + 1 := by
  have hx := x.isLt
  have e : (x + 1).toNat = (x.toNat + 1) % 512 := by simp [BitVec.toNat_add]
  rw [sp_toInt] at h
  rw [sp_toInt, sp_toInt, e]
  split at h <;> split <;> omega

/-- A push with room proposes the byte at SP, SP - 1 and the next PC (R185). -/
theorem pushByte_ok {s : State} (v next : Byte) (h0 : 0 ≤ s.sp.toInt) (hn : s.sp.toInt < s.n.toNat) :
    pushByte v next s =
      { Proposal.advance s.pc with cell := some (s.sp.toInt.toNat, v), sp := some (s.sp - 1), pc := next } := by
  have h : s.writeAddr s.pushAddr = .ok s.sp.toInt.toNat := State.writeAddr_ok.mpr ⟨⟨h0, hn⟩, rfl⟩
  simp [pushByte, h, State.spPushed]

/-- A push without room raises (R185). -/
theorem pushByte_error {s : State} (v next : Byte) (h : s.sp.toInt < 0 ∨ (s.n.toNat : Int) ≤ s.sp.toInt) :
    pushByte v next s = Proposal.raise .outOfBounds s.pc := by
  have h : s.writeAddr s.pushAddr = .error .outOfBounds := State.writeAddr_error.mpr ⟨h, rfl⟩
  simp [pushByte, h]

/-- A pop of a data cell hands on its byte, with SP + 1 proposed (R185). -/
theorem popThen_ok {s : State} (k : Byte → Proposal → Proposal) (h0 : 0 ≤ s.sp.toInt + 1)
    (hn : s.sp.toInt + 1 < s.n.toNat) (ht : (s.mem.read (s.sp.toInt + 1).toNat).tag = false) :
    popThen s k =
      k (s.mem.read (s.sp.toInt + 1).toNat).data { Proposal.advance s.pc with sp := some (s.sp + 1) } := by
  have h : s.memRead s.popAddr = .ok (s.mem.read (s.sp.toInt + 1).toNat).data :=
    State.memRead_ok.mpr ⟨⟨h0, hn⟩, ht, rfl⟩
  simp [popThen, h, State.spPopped]

/-- A pop that fails raises what the read raises (R185, R269). -/
theorem popThen_error {s : State} {d : Diag} (k : Byte → Proposal → Proposal) (h : s.memRead s.popAddr = .error d) :
    popThen s k = Proposal.raise d s.pc := by
  simp [popThen, h]

/-- ENDFOR with a frame: count down, then back into the body or pop (R201). -/
theorem endForOutcome_cons {s : State} {f : LoopFrame} {rest : List LoopFrame} (c : Config) (h : s.ls = f :: rest) :
    endForOutcome c s =
      if loopAgain c (s.reg f.reg) then
        { Proposal.advance s.pc with reg := some (f.reg, counterDown (s.reg f.reg)), pc := f.bodyAddr }
      else { Proposal.advance s.pc with reg := some (f.reg, counterDown (s.reg f.reg)), loop := some .pop } := by
  simp [endForOutcome, h]

/-- ENDFOR on the empty loop stack raises (R201, R267). -/
theorem endForOutcome_nil {s : State} (c : Config) (h : s.ls = []) :
    endForOutcome c s = Proposal.raise .loopStackUnderflow s.pc := by
  simp [endForOutcome, h]

/-- At the hardware's parameter ENDFOR loops when the counter is 2 or more (R201, R5). -/
theorem loopAgain_hardware (v : Byte) : loopAgain Config.hardware v = decide (2 ≤ v.toNat) := by
  simp only [loopAgain, Config.hardware, Bool.false_eq_true, if_false, decide_eq_decide]
  omega

/-- With ENDFOR_ZERO_WRAPS it loops unless the stored counter is 0 (R201). -/
theorem loopAgain_wraps {c : Config} (h : c.endForZeroWraps = true) (v : Byte) :
    loopAgain c v = decide (0 < (counterDown v).toNat) := by
  simp [loopAgain, h]

theorem loopAgain_integer {c : Config} (h : c.endForZeroWraps = false) (v : Byte) :
    loopAgain c v = decide (0 < (v.toNat : Int) - 1) := by
  simp [loopAgain, h]

/-- ALLOC's sum as an integer (R184). -/
theorem State.hpAfter_toNat (s : State) (size : Byte) : (s.hpAfter size).toNat = (s.hp.toNat + size.toNat) % 65536 := by
  have := size.isLt
  simp only [State.hpAfter, BitVec.toNat_add, BitVec.toNat_setWidth]
  omega

end Sys2Proof.Machine
end

