-- ==== Sys2Proof/Laws/Sequencer.lean ====
section
/-! SUPPORT. Laws/Sequencer.lean: an outcome depends on the architectural state alone, and what one tick does in each stage
(spec/50_pipeline_run_control.md R219 to R222, R243). -/

namespace Sys2Proof.Machine

/-- Execute reads registers, flag, pointers, loop stack, memory and its size, and nothing else (R221). -/
theorem instrOutcome_congr (c : Config) (i : Instr) {s t : State} (hm : t.mem = s.mem) (h1 : t.r1 = s.r1)
    (h2 : t.r2 = s.r2) (hz : t.zf = s.zf) (hpc : t.pc = s.pc) (hsp : t.sp = s.sp) (hhp : t.hp = s.hp) (hls : t.ls = s.ls)
    (hn : t.n = s.n) : instrOutcome c i t = instrOutcome c i s := by
  obtain ⟨⟩ := s
  obtain ⟨⟩ := t
  simp only at hm h1 h2 hz hpc hsp hhp hls hn
  subst hm h1 h2 hz hpc hsp hhp hls hn
  cases i <;> rfl

theorem decodedOutcome_congr (c : Config) (d : Decoded) {s t : State} (hm : t.mem = s.mem) (h1 : t.r1 = s.r1)
    (h2 : t.r2 = s.r2) (hz : t.zf = s.zf) (hpc : t.pc = s.pc) (hsp : t.sp = s.sp) (hhp : t.hp = s.hp) (hls : t.ls = s.ls)
    (hn : t.n = s.n) : decodedOutcome c d t = decodedOutcome c d s := by
  cases d with
  | unknown => simp only [decodedOutcome, hpc]
  | malformed => simp only [decodedOutcome, hpc]
  | valid i => exact instrOutcome_congr c i hm h1 h2 hz hpc hsp hhp hls hn

/-- The stage plays no part in what WriteBack leaves. -/
theorem State.commit_ignores_stage (s : State) (x : Stage) (p : Proposal) : ({ s with stage := x } : State).commit p = s.commit p :=
  rfl

theorem tick_rst (c : Config) (cmd : Command) (stop : Bool) (s : State) :
    tick c { rst := true, cmd := cmd, stop := stop } s = .next State.reset := rfl

theorem tick_live (c : Config) {inp : Inputs} (h : inp.rst = false) (s : State) :
    tick c inp s = (s.stopped inp.stop).stageTick c inp.cmd inp.stop := by simp [tick, h]

theorem stageTick_idle (c : Config) (cmd : Command) (stop : Bool) {s : State} (h : s.stage = .idle) :
    s.stageTick c cmd stop = .next (s.idleTick c cmd stop) := by simp [State.stageTick, h]

theorem stageTick_fetch (c : Config) (cmd : Command) (stop : Bool) {s : State} (h : s.stage = .fetch) :
    s.stageTick c cmd stop =
      if s.pc.toNat < s.n.toNat then .next { s with ir := s.mem.read s.pc.toNat, stage := .decode }
      else .fault .fetchOutOfBounds := by
  simp only [State.stageTick, h, State.latchIr_eq]
  by_cases hp : s.pc.toNat < s.n.toNat <;> simp [hp]

theorem stageTick_decode (c : Config) (cmd : Command) (stop : Bool) {s : State} (h : s.stage = .decode) :
    s.stageTick c cmd stop = .next { s with stage := .execute (decode s.ir) } := by simp [State.stageTick, h]

theorem stageTick_execute (c : Config) (cmd : Command) (stop : Bool) {s : State} {d : Decoded} (h : s.stage = .execute d) :
    s.stageTick c cmd stop =
      .next { s.latchAlu (decodedOutcome c d s) with stage := .writeBack d (decodedOutcome c d s) } := by
  simp [State.stageTick, h]

theorem stageTick_writeBack (c : Config) (cmd : Command) (stop : Bool) {s : State} {d : Decoded} {p : Proposal}
    (h : s.stage = .writeBack d p) : s.stageTick c cmd stop = .next (s.commit p) := by simp [State.stageTick, h]

/-- The step from Idle: the fault of a fetch outside memory, or the decoded cell retired with IR latched (R216). -/
theorem fetchAndRun_eq (s : State) :
    fetchAndRun s =
      if s.pc.toNat < s.n.toNat then
        .next (({ s with ir := s.mem.read s.pc.toNat } : State).retire
          (decodedOutcome Config.hardware (decode (s.mem.read s.pc.toNat)) s))
      else .fault .fetchOutOfBounds := by
  unfold fetchAndRun
  rw [State.latchIr_eq]
  by_cases hp : s.pc.toNat < s.n.toNat
  · simp only [hp, if_true]
    rw [runDecoded_eq]
    congr 2
  · simp [hp]

theorem step_idle {s : State} (h : s.stage = .idle) :
    step s = if s.inProgram = true then fetchAndRun s else .next s.haltedTick := by simp [step, stepOnce, h]

theorem step_fetch {s : State} (h : s.stage = .fetch) : step s = fetchAndRun s := by simp [step, stepOnce, h]

theorem step_decode {s : State} (h : s.stage = .decode) : step s = runDecoded (decode s.ir) s := by
  simp [step, stepOnce, h]

theorem step_execute {s : State} {d : Decoded} (h : s.stage = .execute d) : step s = runDecoded d s := by
  simp [step, stepOnce, h]

theorem step_writeBack {s : State} {d : Decoded} {p : Proposal} (h : s.stage = .writeBack d p) :
    step s = .next (s.commit p) := by simp [step, stepOnce, h]

end Sys2Proof.Machine
end

