-- ==== Sys2Proof/Laws/Outcomes.lean ====
section
/-! SUPPORT. Laws/Outcomes.lean: what the Execute stage can propose, once for all instructions: a diagnostic with nothing else,
or writes of the instruction's own kind (spec/10_state.md R22, spec/50_pipeline_run_control.md R221). -/

namespace Sys2Proof.Machine

/-- A checked access either raises, or goes on. -/
theorem attempt_cases {α : Type} (r : Except Diag α) (pc : Byte) (k : α → Proposal) :
    (∃ d, r = .error d ∧ attempt r pc k = Proposal.raise d pc) ∨ (∃ v, r = .ok v ∧ attempt r pc k = k v) := by
  cases r with
  | error d => exact .inl ⟨d, rfl, rfl⟩
  | ok v => exact .inr ⟨v, rfl, rfl⟩

/-- What a push can propose. -/
theorem pushByte_cases (v next : Byte) (s : State) :
    ((s.sp.toInt < 0 ∨ (s.n.toNat : Int) ≤ s.sp.toInt) ∧ pushByte v next s = Proposal.raise .outOfBounds s.pc) ∨
    ((0 ≤ s.sp.toInt ∧ s.sp.toInt < s.n.toNat) ∧ pushByte v next s =
      { Proposal.advance s.pc with cell := some (s.sp.toInt.toNat, v), sp := some (s.sp - 1), pc := next }) := by
  by_cases h : 0 ≤ s.sp.toInt ∧ s.sp.toInt < s.n.toNat
  · exact .inr ⟨h, pushByte_ok v next h.1 h.2⟩
  · have h : s.sp.toInt < 0 ∨ (s.n.toNat : Int) ≤ s.sp.toInt := by omega
    exact .inl ⟨h, pushByte_error v next h⟩

/-- What a pop can propose. -/
theorem popThen_cases (s : State) (k : Byte → Proposal → Proposal) :
    (∃ d, s.memRead s.popAddr = .error d ∧ popThen s k = Proposal.raise d s.pc) ∨
    ((0 ≤ s.sp.toInt + 1 ∧ s.sp.toInt + 1 < s.n.toNat) ∧ (s.mem.read (s.sp.toInt + 1).toNat).tag = false ∧
      popThen s k =
        k (s.mem.read (s.sp.toInt + 1).toNat).data { Proposal.advance s.pc with sp := some (s.sp + 1) }) := by
  rcases h : s.memRead s.popAddr with d | v
  · exact .inl ⟨d, rfl, popThen_error k h⟩
  · obtain ⟨hb, ht, -⟩ := State.memRead_ok.mp h
    exact .inr ⟨hb, ht, popThen_ok k hb.1 hb.2 ht⟩

/-- What an instruction can propose, constructor by constructor: each case with its condition. -/
def OutcomeShape (c : Config) (s : State) (p : Proposal) : Instr → Prop
  | .load dst addr =>
    (∃ d, s.memRead (absAddr addr) = .error d ∧ p = Proposal.raise d s.pc) ∨
    (∃ v, s.memRead (absAddr addr) = .ok v ∧ p = { Proposal.advance s.pc with reg := some (dst, v) })
  | .store addr src =>
    (s.n.toNat ≤ addr.toNat ∧ p = Proposal.raise .outOfBounds s.pc) ∨
    (addr.toNat < s.n.toNat ∧ p = { Proposal.advance s.pc with cell := some (addr.toNat, s.reg src) })
  | .add dst src => p = aluOutcome dst (s.reg dst + s.reg src) s
  | .sub dst src => p = aluOutcome dst (s.reg dst - s.reg src) s
  | .and dst src => p = aluOutcome dst (s.reg dst &&& s.reg src) s
  | .or dst src => p = aluOutcome dst (s.reg dst ||| s.reg src) s
  | .xor dst src => p = aluOutcome dst (s.reg dst ^^^ s.reg src) s
  | .mov dst literal => p = { Proposal.advance s.pc with reg := some (dst, literal) }
  | .cmp a b => p = { Proposal.advance s.pc with zf := some (equalFlag (s.reg a) (s.reg b)) }
  | .je addr => p = { Proposal.advance s.pc with pc := if s.zf then addr else pcNext s.pc }
  | .jne addr => p = { Proposal.advance s.pc with pc := if s.zf then pcNext s.pc else addr }
  | .push reg =>
    ((s.sp.toInt < 0 ∨ (s.n.toNat : Int) ≤ s.sp.toInt) ∧ p = Proposal.raise .outOfBounds s.pc) ∨
    ((0 ≤ s.sp.toInt ∧ s.sp.toInt < s.n.toNat) ∧
      p = { Proposal.advance s.pc with cell := some (s.sp.toInt.toNat, s.reg reg), sp := some (s.sp - 1) })
  | .pop reg =>
    (∃ d, s.memRead s.popAddr = .error d ∧ p = Proposal.raise d s.pc) ∨
    ((0 ≤ s.sp.toInt + 1 ∧ s.sp.toInt + 1 < s.n.toNat) ∧ (s.mem.read (s.sp.toInt + 1).toNat).tag = false ∧
      p = { Proposal.advance s.pc with
            reg := some (reg, (s.mem.read (s.sp.toInt + 1).toNat).data), sp := some (s.sp + 1) })
  | .call addr =>
    ((s.sp.toInt < 0 ∨ (s.n.toNat : Int) ≤ s.sp.toInt) ∧ p = Proposal.raise .outOfBounds s.pc) ∨
    ((0 ≤ s.sp.toInt ∧ s.sp.toInt < s.n.toNat) ∧
      p = { Proposal.advance s.pc with
            cell := some (s.sp.toInt.toNat, pcNext s.pc), sp := some (s.sp - 1), pc := addr })
  | .ret =>
    (∃ d, s.memRead s.popAddr = .error d ∧ p = Proposal.raise d s.pc) ∨
    ((0 ≤ s.sp.toInt + 1 ∧ s.sp.toInt + 1 < s.n.toNat) ∧ (s.mem.read (s.sp.toInt + 1).toNat).tag = false ∧
      p = { Proposal.advance s.pc with sp := some (s.sp + 1), pc := (s.mem.read (s.sp.toInt + 1).toNat).data })
  | .alloc reg size => p = { Proposal.advance s.pc with reg := some (reg, s.heapByte), hp := some (s.hpAfter size) }
  | .forLoop reg count =>
    p = { Proposal.advance s.pc with reg := some (reg, count), loop := some (.push { start := s.pc, reg := reg }) }
  | .endFor =>
    (s.ls = [] ∧ p = Proposal.raise .loopStackUnderflow s.pc) ∨
    (∃ f rest, s.ls = f :: rest ∧
      ((loopAgain c (s.reg f.reg) = true ∧
          p = { Proposal.advance s.pc with reg := some (f.reg, counterDown (s.reg f.reg)), pc := f.bodyAddr }) ∨
       (loopAgain c (s.reg f.reg) = false ∧
          p = { Proposal.advance s.pc with reg := some (f.reg, counterDown (s.reg f.reg)), loop := some .pop })))

/-- Every proposal the Execute stage makes has its instruction's shape. -/
theorem instrOutcome_shape (c : Config) (i : Instr) (s : State) : OutcomeShape c s (instrOutcome c i s) i := by
  cases i with
  | load dst addr => exact attempt_cases (s.memRead (absAddr addr)) s.pc _
  | store addr src =>
    rcases attempt_cases (s.writeAddr (absAddr addr)) s.pc
      (fun a => { Proposal.advance s.pc with cell := some (a, s.reg src) }) with ⟨d, h, e⟩ | ⟨a, h, e⟩
    · obtain ⟨hb, rfl⟩ := State.writeAddr_error.mp h
      have hb' : s.n.toNat ≤ addr.toNat := by unfold absAddr at hb; omega
      exact .inl ⟨hb', e⟩
    · obtain ⟨hb, rfl⟩ := State.writeAddr_ok.mp h
      have hb' : addr.toNat < s.n.toNat := by unfold absAddr at hb; omega
      exact .inr ⟨hb', e⟩
  | je addr => unfold OutcomeShape instrOutcome jeOutcome jumpOutcome jumpTarget; cases s.zf <;> rfl
  | jne addr => unfold OutcomeShape instrOutcome jneOutcome jumpOutcome jumpTarget; cases s.zf <;> rfl
  | push reg => exact pushByte_cases (s.reg reg) (pcNext s.pc) s
  | pop reg => exact popThen_cases s (fun v p => { p with reg := some (reg, v) })
  | call addr => exact pushByte_cases (pcNext s.pc) addr s
  | ret => exact popThen_cases s (fun v p => { p with pc := v })
  | endFor =>
    rcases h : s.ls with _ | ⟨f, rest⟩
    · exact .inl ⟨h, endForOutcome_nil c h⟩
    · refine .inr ⟨f, rest, h, ?_⟩
      have e : instrOutcome c .endFor s = _ := endForOutcome_cons c h
      rw [e]
      cases hl : loopAgain c (s.reg f.reg)
      · exact .inr ⟨rfl, by simp⟩
      · exact .inl ⟨rfl, by simp⟩
  | add dst src => rfl
  | sub dst src => rfl
  | and dst src => rfl
  | or dst src => rfl
  | xor dst src => rfl
  | mov dst literal => rfl
  | cmp a b => rfl
  | alloc reg size => rfl
  | forLoop reg count => rfl

/-- An Idle tick of a CORE outside its program only clears RUN (R233). -/
theorem State.idleControl_halted {s : State} (c : Config) (cmd : Command) (stop : Bool) (h : s.inProgram = false) :
    s.idleControl c cmd stop = s.haltedTick := by
  unfold State.idleControl
  simp [h]

theorem State.stopped_false (s : State) : s.stopped false = s := by
  cases s
  simp [State.stopped]

end Sys2Proof.Machine
end

