-- ==== Sys2Proof/Laws/PerInstr.lean ====
section
/-! SUPPORT. Laws/PerInstr.lean: a fact of each instruction as syntax: its word lies in its own row of the opcode table, with
the row's opcode and every must-be-zero bit clear (spec/30_encoding.md R97, R98). -/

namespace Sys2Proof.Laws.TableRow

/-- The opcode number of each instruction (R97). -/
def opcode : Instr → Nat
  | .load _ _ => 1
  | .store _ _ => 2
  | .add _ _ => 3
  | .sub _ _ => 4
  | .and _ _ => 5
  | .or _ _ => 6
  | .xor _ _ => 7
  | .mov _ _ => 8
  | .cmp _ _ => 9
  | .je _ => 10
  | .jne _ => 11
  | .push _ => 12
  | .pop _ => 13
  | .call _ => 14
  | .ret => 15
  | .alloc _ _ => 16
  | .forLoop _ _ => 17
  | .endFor => 18

/-- The instruction's word has its row's opcode and none of its row's must-be-zero bits. -/
def Statement (i : Instr) : Prop := opField (encode i) = opcode i ∧ encode i &&& mbzMask (opcode i) = 0#16

theorem load (dst : Reg) (addr : Byte) : Statement (.load dst addr) := by
  revert addr; cases dst <;> (unfold Statement; decide)
theorem store (addr : Byte) (src : Reg) : Statement (.store addr src) := by
  revert addr; cases src <;> (unfold Statement; decide)
theorem add (dst : Reg) (src : Reg) : Statement (.add dst src) := by
  cases dst <;> cases src <;> (unfold Statement; decide)
theorem sub (dst : Reg) (src : Reg) : Statement (.sub dst src) := by
  cases dst <;> cases src <;> (unfold Statement; decide)
theorem and (dst : Reg) (src : Reg) : Statement (.and dst src) := by
  cases dst <;> cases src <;> (unfold Statement; decide)
theorem or (dst : Reg) (src : Reg) : Statement (.or dst src) := by
  cases dst <;> cases src <;> (unfold Statement; decide)
theorem xor (dst : Reg) (src : Reg) : Statement (.xor dst src) := by
  cases dst <;> cases src <;> (unfold Statement; decide)
theorem mov (dst : Reg) (literal : Byte) : Statement (.mov dst literal) := by
  revert literal; cases dst <;> (unfold Statement; decide)
theorem cmp (a : Reg) (b : Reg) : Statement (.cmp a b) := by
  cases a <;> cases b <;> (unfold Statement; decide)
theorem je (addr : Byte) : Statement (.je addr) := by
  revert addr; (unfold Statement; decide)
theorem jne (addr : Byte) : Statement (.jne addr) := by
  revert addr; (unfold Statement; decide)
theorem push (reg : Reg) : Statement (.push reg) := by
  cases reg <;> (unfold Statement; decide)
theorem pop (reg : Reg) : Statement (.pop reg) := by
  cases reg <;> (unfold Statement; decide)
theorem call (addr : Byte) : Statement (.call addr) := by
  revert addr; (unfold Statement; decide)
theorem ret : Statement (.ret) := by
  (unfold Statement; decide)
theorem alloc (reg : Reg) (size : Byte) : Statement (.alloc reg size) := by
  revert size; cases reg <;> (unfold Statement; decide)
theorem forLoop (reg : Reg) (count : Byte) : Statement (.forLoop reg count) := by
  revert count; cases reg <;> (unfold Statement; decide)
theorem endFor : Statement (.endFor) := by
  (unfold Statement; decide)

end Sys2Proof.Laws.TableRow
end

