-- ==== Sys2Proof/Tests/Slice0.lean ====
section
/-! SUPPORT. Tests/Slice0.lean: the author's own tests. Expected results are the spec's (each names its place), never the
model's own answers. The witnesses at the end show that the hypotheses of each statement can be met. -/

namespace Sys2Proof.Tests

open Sys2Proof Sys2Proof.Machine Sys2Proof.Claims

/-- Reset, with a program long enough that every address below 16 may run (95_test_vectors, conventions). -/
def base : State := { State.reset with ic := 16 }

/-- The next state satisfies a check. -/
def after (o : Host.Outcome State Fault Refusal) (p : State → Bool) : Bool :=
  match o with
  | .next t => p t
  | .fault _ => false
  | .refused _ => false

/-- One step of a word at pc. -/
def run1 (s : State) (w : Nat) (p : State → Bool) : Bool := after (step (s.withFetchWord 16 w)) p

/-! ## Well-formedness: each check refuses an ill-formed term -/

theorem test_wf_regfield : regFieldWf 0b01 = true ∧ regFieldWf 0b10 = false ∧ regFieldWf 0b11 = false := by decide
theorem test_wf_cell :
    (Cell.byte 200).wf = true ∧ (Cell.mk false 0x0100).wf = false ∧ (Cell.mk true 0x0100).wf = true := by decide
theorem test_wf_size : sizeWf 16 = true ∧ sizeWf 256 = true ∧ sizeWf 15 = false ∧ sizeWf 257 = false := by decide
theorem test_wf_program : programWf [0x4005, 0x8803] = true ∧ programWf (List.replicate 17 0x4001) = false := by decide

/-! ## Decoding: words written out bit by bit from R92 to R97 -/

theorem test_decode_memory :
    decode (.instr 0b0000101000010100) = .valid (.load .r2 20) ∧
    decode (.instr 0b0001000000010100) = .valid (.store 20 .r1) := by decide
theorem test_decode_alu :
    decode (.instr 0b0001100010000000) = .valid (.add .r1 .r2) ∧
    decode (.instr 0b0010001000000000) = .valid (.sub .r2 .r1) ∧
    decode (.instr 0b0010101000000000) = .valid (.and .r2 .r1) ∧
    decode (.instr 0b0011000010000000) = .valid (.or .r1 .r2) ∧
    decode (.instr 0b0011101010000000) = .valid (.xor .r2 .r2) := by decide
theorem test_decode_mov_cmp :
    decode (.instr 0b0100001011111110) = .valid (.mov .r2 254) ∧
    decode (.instr 0b0100100010000000) = .valid (.cmp .r1 .r2) := by decide
theorem test_decode_jumps :
    decode (.instr 0b0101000000001000) = .valid (.je 8) ∧
    decode (.instr 0b0101100000001001) = .valid (.jne 9) := by decide
theorem test_decode_stack :
    decode (.instr 0b0110001000000000) = .valid (.push .r2) ∧
    decode (.instr 0b0110100000000000) = .valid (.pop .r1) ∧
    decode (.instr 0b0111000000000110) = .valid (.call 6) ∧
    decode (.instr 0b0111100000000000) = .valid .ret ∧
    decode (.instr 0b1000001000000100) = .valid (.alloc .r2 4) := by decide
theorem test_decode_loops :
    decode (.instr 0b1000100000000011) = .valid (.forLoop .r1 3) ∧
    decode (.instr 0b1001000000000000) = .valid .endFor := by decide
/-- 95_test_vectors 2.7, 2.1, 2.2, 2.4, 2.6. -/
theorem test_decode_rejects :
    decode (.instr 0x0000) = .unknown ∧ decode (.instr 0x07FF) = .unknown ∧ decode (.instr 0x9800) = .unknown ∧
    decode (.instr 0xFFFF) = .unknown ∧ decode (.byte 42) = .unknown ∧ decode (.instr 0x0C14) = .malformed ∧
    decode (.instr 0x0914) = .malformed ∧ decode (.instr 0x1881) = .malformed ∧ decode (.instr 0x1900) = .malformed ∧
    decode (.instr 0x5208) = .malformed ∧ decode (.instr 0x9001) = .malformed := by decide
theorem test_table_word : decodeTableWord 16 0x8204 = some (.alloc .r2 4) ∧ decodeTableWord 16 0x0FFF = none := by decide

/-! ## Single steps: 95_test_vectors section 2 -/

theorem test_load : run1 { base with mem := [(20, .byte 200)] } 0x0A14
    (fun t => t.r2 = 200 ∧ t.pc = 1 ∧ t.diag = 0) = true := by decide
theorem test_load_out_of_bounds : run1 { base with r1 := 9 } 0x0820
    (fun t => t.r1 = 9 ∧ t.pc = 1 ∧ t.diag = 1 ∧ t.diagLog = 0b0001) = true := by decide
theorem test_store : run1 { base with r2 := 77, mem := [(20, .byte 5)] } 0x1214
    (fun t => t.mem.read 20 = .byte 77 ∧ t.pc = 1) = true := by decide
theorem test_store_own_cell : run1 { base with r1 := 3 } 0x1000
    (fun t => t.mem.read 0 = .byte 3 ∧ t.pc = 1 ∧ t.diag = 0) = true := by decide
theorem test_add_wraps : run1 { base with r1 := 255, r2 := 1 } 0x1880
    (fun t => t.r1 = 0 ∧ t.aluOut = ⟨true, 0⟩ ∧ t.zf = false) = true := by decide
theorem test_add_same_register : run1 { base with r1 := 130 } 0x1800 (fun t => t.r1 = 4) = true := by decide
theorem test_sub_wraps : run1 { base with r1 := 5, r2 := 10 } 0x2080
    (fun t => t.r1 = 251 ∧ t.r2 = 10 ∧ t.aluOut = ⟨true, 251⟩) = true := by decide
theorem test_and : run1 { base with r1 := 170, r2 := 204 } 0x2A00
    (fun t => t.r2 = 136 ∧ t.r1 = 170) = true := by decide
theorem test_or : run1 { base with r1 := 170, r2 := 204 } 0x3080
    (fun t => t.r1 = 238 ∧ t.aluOut = ⟨true, 238⟩) = true := by decide
theorem test_xor : run1 { base with r1 := 170, r2 := 204 } 0x3880
    (fun t => t.r1 = 102 ∧ t.r2 = 204) = true := by decide
theorem test_mov : run1 { base with r2 := 9, zf := true } 0x4200
    (fun t => t.r2 = 0 ∧ t.zf ∧ t.pc = 1) = true := by decide
theorem test_cmp_equal : run1 { base with r1 := 7, r2 := 7 } 0x4880 (fun t => t.zf) = true := by decide
theorem test_cmp_differs : run1 { base with r1 := 7, r2 := 8, zf := true } 0x4880 (fun t => !t.zf) = true := by decide
theorem test_je : run1 { base with zf := true, pc := 6 } 0x5008 (fun t => t.pc = 8) = true := by decide
theorem test_je_past_memory : run1 { base with zf := true, pc := 2 } 0x50C8
    (fun t => t.pc = 200 ∧ t.diag = 0 ∧ t.halted) = true := by decide
theorem test_jne : run1 { base with pc := 5 } 0x5809 (fun t => t.pc = 9) = true := by decide
theorem test_jne_not_taken : run1 { base with zf := true, pc := 5 } 0x5809 (fun t => t.pc = 6) = true := by decide
theorem test_push_to_minus_one : run1 { base with r2 := 5, sp := 0, pc := 3, mem := [(0, .instr 0x4005)] } 0x6200
    (fun t => t.mem.read 0 = .byte 5 ∧ t.sp.toInt = -1 ∧ t.pc = 4) = true := by decide
theorem test_push_full : run1 { base with r1 := 5, sp := -1, pc := 3 } 0x6000
    (fun t => t.pc = 4 ∧ t.diag = 1 ∧ t.sp.toInt = -1) = true := by decide
theorem test_pop : run1 { base with sp := 30, mem := [(31, .byte 8)] } 0x6A00
    (fun t => t.r2 = 8 ∧ t.sp = 31 ∧ t.mem.read 31 = .byte 8) = true := by decide
theorem test_pop_empty : run1 { base with r1 := 4 } 0x6800
    (fun t => t.pc = 1 ∧ t.diag = 1 ∧ t.r1 = 4 ∧ t.sp = 31) = true := by decide
theorem test_call : run1 { base with pc := 15 } 0x7014
    (fun t => t.mem.read 31 = .byte 16 ∧ t.sp = 30 ∧ t.pc = 20 ∧ t.halted) = true := by decide
theorem test_call_full : run1 { base with pc := 2, sp := -1 } 0x7006
    (fun t => t.pc = 3 ∧ t.diag = 1 ∧ t.sp.toInt = -1) = true := by decide
theorem test_ret : run1 { base with pc := 7, sp := 30, mem := [(31, .byte 3)] } 0x7800
    (fun t => t.pc = 3 ∧ t.sp = 31) = true := by decide
theorem test_ret_empty : run1 { base with pc := 7 } 0x7800
    (fun t => t.pc = 8 ∧ t.diag = 1 ∧ t.sp = 31) = true := by decide
theorem test_alloc_truncates : run1 { base with hp := 260 } 0x8001 (fun t => t.r1 = 4 ∧ t.hp = 261) = true := by decide
theorem test_alloc_wraps : run1 { base with hp := 65530 } 0x800A (fun t => t.r1 = 250 ∧ t.hp = 4) = true := by decide
theorem test_for : run1 { base with pc := 1, r1 := 5 } 0x8803
    (fun t => t.r1 = 3 ∧ t.ls = [⟨1, .r1⟩] ∧ t.pc = 2) = true := by decide
theorem test_for_nested : run1 { base with pc := 4, r2 := 5, ls := [⟨1, .r1⟩] } 0x8A00
    (fun t => t.r2 = 0 ∧ t.ls = [⟨4, .r2⟩, ⟨1, .r1⟩] ∧ t.pc = 5) = true := by decide
theorem test_endfor_at_zero : run1 { base with pc := 2, ls := [⟨1, .r1⟩] } 0x9000
    (fun t => t.r1 = 255 ∧ t.ls = [] ∧ t.pc = 3) = true := by decide
theorem test_endfor_top_frame_only : run1 { base with pc := 3, r1 := 2, r2 := 1, ls := [⟨1, .r2⟩, ⟨0, .r1⟩] } 0x9000
    (fun t => t.r2 = 0 ∧ t.r1 = 2 ∧ t.ls = [⟨0, .r1⟩] ∧ t.pc = 4) = true := by decide
theorem test_endfor_underflow : run1 { base with pc := 2, r1 := 3 } 0x9000
    (fun t => t.pc = 3 ∧ t.diag = 4 ∧ t.diagLog = 0b1000 ∧ t.r1 = 3) = true := by decide
/-- 2.7: the malformed word wins over its out-of-range immediate (R269). -/
theorem test_priority : run1 base 0x0FFF (fun t => t.pc = 1 ∧ t.diag = 3 ∧ t.diagLog = 0b0100) = true := by decide
theorem test_unknown : run1 base 0x0000 (fun t => t.pc = 1 ∧ t.diag = 2 ∧ t.ir = .instr 0) = true := by decide

/-! ## The sequencer: 95_test_vectors section 4 -/

/-- The scenario's program after `load` (tick 1 of 4.1). -/
def loaded : State := State.reset.load [0x4005, 0x8803, 0x9000]

theorem test_load_command : after (tick Config.hardware { rst := false, cmd := .load [0x4005, 0x8803, 0x9000], stop := false }
    State.reset) (fun t => t.ic = 3 ∧ t.mem.read 1 = .instr 0x8803 ∧ !t.halted) = true := by decide
theorem test_ticks_of_one_step : after (ticks Config.hardware (Inputs.stepCmd :: List.replicate 3 Inputs.quiet) loaded)
    (fun t => t.stage.code = 4 ∧ t.r1 = 0 ∧ t.pc = 0 ∧ t.ir = .instr 0x4005) = true := by decide
theorem test_commit_tick : after (ticks Config.hardware (Inputs.stepCmd :: List.replicate 4 Inputs.quiet) loaded)
    (fun t => t.stage = .idle ∧ t.r1 = 5 ∧ t.pc = 1 ∧ t.diag = 0) = true := by decide
/-- 2.6: ENDFOR at counter 0 with ENDFOR_ZERO_WRAPS = true. -/
theorem test_endfor_zero_wraps : after (ticks { runInterval := 0, endForZeroWraps := true } [Inputs.quiet, Inputs.quiet]
    { base with pc := 2, ls := [⟨1, .r1⟩], stage := .execute (.valid .endFor) })
    (fun t => t.r1 = 255 ∧ t.pc = 2 ∧ t.ls = [⟨1, .r1⟩]) = true := by decide
/-- 4.4. -/
theorem test_resize_refused : after (tick Config.hardware { rst := false, cmd := .resize 300, stop := false } loaded)
    (fun t => t = loaded) = true := by decide
/-- 5.1. -/
theorem test_resize : after (tick Config.hardware { rst := false, cmd := .resize 16, stop := false } loaded)
    (fun t => t.n = 16 ∧ t.sp = 15 ∧ t.hp = 16 ∧ t.ic = 0 ∧ t.mem = [] ∧ t.halted) = true := by decide

/-! ## The assembler: 95_test_vectors section 3 -/

theorem test_asm_words :
    asmLine "MOV R1 00000101".toList = .word 0x4005 ∧ asmLine "STORE 20 R1".toList = .word 0x1014 ∧
    asmLine "LOAD R2 020".toList = .word 0x0A14 ∧ asmLine "  PUSH   R2  ".toList = .word 0x6200 ∧
    asmLine "RET 5".toList = .word 0x7800 := by decide
theorem test_asm_rejected_words :
    asmLine "mov R1 00000101".toList = .word 0 ∧ asmLine "; comment".toList = .word 0 ∧
    asmLine "LOAD R1 x".toList = .word 0x0FFF ∧ asmLine "JE loop".toList = .word 0x57FF ∧
    asmLine "STORE abc R1".toList = .word 0x17FF := by decide
theorem test_asm_refusals :
    asmLine "LOAD R1 -1".toList = .refused ∧ asmLine "LOAD R1 256".toList = .refused ∧
    asmLine "LOAD R1 12ab".toList = .refused ∧ asmLine "PUSH".toList = .refused ∧
    asmLine "ADD R1, R2".toList = .refused ∧ asmLine "STORE R1 20".toList = .refused ∧
    asmLine "MOV R1 101".toList = .refused ∧ asmLine "MOV R1 00000102".toList = .refused := by decide
theorem test_assemble_scenario :
    assemble "MOV R1 00000101\n\n FOR R1 3\nENDFOR\n".toList = some [0x4005, 0x8803, 0x9000] := by decide
/-- R112's examples. -/
theorem test_disassemble :
    wordText 0x0A14 = "LOAD R2 20".toList ∧ wordText 0x40FF = "MOV R1 11111111".toList ∧
    wordText 0x0FFF = ".word 0x0FFF".toList := by decide

/-! ## Witnesses: the hypotheses of each statement can be met -/

/-- A state inside its program, with an ADD word at pc, used by several witnesses. -/
def atAdd : State := { base with mem := [(0, .instr 0x1880)] }

/-- The invariants hold of `atAdd` in any stage whose own clause holds. -/
theorem atAdd_inv (x : Stage) (h : stageOk { atAdd with stage := x }) : ({ atAdd with stage := x } : State).Inv :=
  ⟨(by decide : Memory.wf atAdd.mem), (by decide : cellsOk atAdd.n atAdd.mem), (by decide : 16 ≤ atAdd.n.toNat),
    (by decide : atAdd.n.toNat ≤ 256), (by decide : atAdd.ic.toNat ≤ 16), (by decide : spInRange atAdd.n atAdd.sp),
    (by decide : framesOk atAdd.ls), h⟩

theorem witness_DecodeDeterminesTheWord : decode (Cell.instr 0x0A14) = .valid (.load .r2 20) := by decide
theorem witness_DecodeFollowsTheTable :
    decode (Cell.instr 0x90FF) = .malformed ∧ decode (Cell.instr 0x9000) = .valid .endFor ∧
    0x8AFF#16 &&& (tableRow (.forLoop .r1 0)).2 = (tableRow (.forLoop .r1 0)).1 := by decide
theorem witness_ResizeResetsEverything :
    loaded.stage = .idle ∧ 16 ≤ (16 : BitVec 9).toNat ∧ (256 : BitVec 9).toNat ≤ 256 := by decide
theorem witness_ResizeOutsideRangeIgnored : (15 : BitVec 9).toNat < 16 ∧ 256 < (257 : BitVec 9).toNat := by decide
theorem witness_LoadWritesProgramAndResets :
    atAdd.stage = .idle ∧ Memory.wf atAdd.mem ∧ 16 ≤ atAdd.n.toNat ∧ atAdd.n.toNat ≤ 256 ∧
    (List.replicate 16 (0x4001 : Word))[15]? = some 0x4001 := by decide
theorem witness_StepRunsTheDecodedInstruction :
    atAdd.stage = .idle ∧ atAdd.pc.toNat < atAdd.ic.toNat ∧ atAdd.pc.toNat < atAdd.n.toNat ∧
    decode (atAdd.mem.read atAdd.pc.toNat) = .valid (.add .r1 .r2) := by decide
theorem witness_StepRaisesOnRejectedCells :
    base.stage = .idle ∧ base.pc.toNat < base.ic.toNat ∧ base.pc.toNat < base.n.toNat ∧
    decode (base.mem.read base.pc.toNat) = .unknown ∧
    decode (({ base with mem := [(0, .instr 0x0FFF)] } : State).mem.read 0) = .malformed := by decide
theorem witness_HaltedGrantsNothing :
    State.reset.halted = true ∧ ({ base with pc := 16, run := true } : State).halted = true := by decide
theorem witness_StepNeverStops : ({ atAdd with stage := .idle } : State).Inv := atAdd_inv .idle trivial
theorem witness_StepKeepsTheInvariants :
    ({ atAdd with stage := .decode } : State).Inv ∧ ∃ t, step { atAdd with stage := .decode } = .next t :=
  ⟨atAdd_inv .decode (by unfold stageOk; decide), _, rfl⟩
/-- The HP clause: an ALLOC about to run does not wrap at HP = 65530 with size 5 and does with size 6 (R26, R184). -/
theorem witness_heapFloor :
    ({ atAdd with hp := 65530 } : State).heapFloor false ∧ State.reset.heapFloor false ∧
    ({ base with hp := 65530, mem := [(0, .instr 0x8005)] } : State).stepWraps = false ∧
    ({ base with hp := 65530, mem := [(0, .instr 0x8006)] } : State).stepWraps = true ∧
    ({ base with hp := 65530, stage := .writeBack (.valid (.alloc .r1 6)) (.advance 0) } : State).tickWraps = true :=
  ⟨fun _ => by decide, fun _ => by decide, by decide, by decide, by decide⟩
theorem witness_TickKeepsTheInvariants : ({ atAdd with stage := .fetch } : State).Inv :=
  atAdd_inv .fetch (by unfold stageOk; decide)
theorem witness_StepFinishesAStepInFlight :
    ({ atAdd with stage := .fetch } : State).pc.toNat < atAdd.ic.toNat ∧
    decode ({ atAdd with stage := .decode, ir := .instr 0x1880 } : State).ir = .valid (.add .r1 .r2) ∧
    decode ({ atAdd with stage := .decode, ir := .instr 0x0FFF } : State).ir = .malformed ∧
    decode ({ atAdd with stage := .decode, ir := .byte 5 } : State).ir = .unknown ∧
    ({ atAdd with stage := .execute (.valid .ret) } : State).stage = .execute (.valid .ret) ∧
    ({ atAdd with stage := .execute .unknown } : State).stage = .execute .unknown ∧
    ({ atAdd with stage := .execute .malformed } : State).stage = .execute .malformed ∧
    ({ atAdd with stage := .writeBack .unknown (Proposal.advance 0) } : State).stage ≠ .idle := by decide
theorem witness_ZfIsCmpsAlone :
    (∀ a b, Instr.endFor ≠ .cmp a b) ∧ (∀ a, Instr.endFor ≠ .je a) ∧ (∀ a, Instr.endFor ≠ .jne a) ∧
    ∃ t, exec .endFor base = .next t :=
  ⟨fun _ _ => by simp, fun _ => by simp, fun _ => by simp, _, rfl⟩
theorem witness_Je :
    ({ base with zf := true } : State).zf = true ∧ base.zf = false ∧ base.ic.toNat ≤ (16 : Byte).toNat := by decide
theorem witness_LoadReadsTheByte :
    (31 : Byte).toNat < base.n.toNat ∧ (base.mem.read (31 : Byte).toNat).tag = false ∧
    (255 : Byte).toNat < ({ base with n := 256 } : State).n.toNat := by decide
theorem witness_StoreReplacesTheCell : Memory.wf atAdd.mem ∧ (31 : Byte).toNat < atAdd.n.toNat := by decide
theorem witness_PushWritesAtSpThenDecrements :
    (∀ s ∈ [atAdd, { atAdd with sp := 0 }],
      Memory.wf s.mem ∧ 0 ≤ s.sp.toInt ∧ s.sp.toInt ≤ (s.n.toNat : Int) - 1) ∧
    ({ atAdd with sp := -1 } : State).sp.toInt = -1 := by decide
theorem witness_PopReadsAboveSp :
    ∀ s ∈ [({ base with sp := -1 } : State), { base with sp := 30 }],
      s.n.toNat ≤ 256 ∧ -1 ≤ s.sp.toInt ∧ s.sp.toInt + 1 < s.n.toNat ∧
        (s.mem.read (s.sp.toInt + 1).toNat).tag = false := by decide
theorem witness_CallPushesTheReturnAddress :
    ∀ s ∈ [base, { base with sp := 0 }], Memory.wf s.mem ∧ 0 ≤ s.sp.toInt ∧ s.sp.toInt < s.n.toNat := by decide
theorem witness_RetJumpsToTheTopByte :
    ∀ s ∈ [({ base with sp := -1 } : State), { base with n := 256, sp := 254 }],
      s.n.toNat ≤ 256 ∧ -1 ≤ s.sp.toInt ∧ s.sp.toInt + 1 < s.n.toNat ∧
        (s.mem.read (s.sp.toInt + 1).toNat).tag = false := by decide
theorem witness_EndForCountsTheTopFrameDown :
    ∀ v ∈ [(0 : Byte), 1, 2], ∀ s ∈ [({ base with r1 := v, ls := [⟨1, .r1⟩] } : State)],
      s.ls = ⟨1, .r1⟩ :: [] ∧ (2 ≤ (s.reg .r1).toNat ↔ v = 2) := by decide
theorem witness_EndForUnderEitherReading :
    ∀ s ∈ [({ base with ls := [⟨1, .r1⟩], stage := .execute (.valid .endFor) } : State)],
      s.stage = .execute (.valid .endFor) ∧ s.ls = ⟨1, .r1⟩ :: [] := by decide
theorem witness_FailingFormsRaise :
    base.n.toNat ≤ (32 : Byte).toNat ∧ (0 : Byte).toNat < atAdd.n.toNat ∧ (atAdd.mem.read (0 : Byte).toNat).tag = true ∧
    ({ base with sp := -1 } : State).sp.toInt = -1 ∧ base.sp.toInt = (base.n.toNat : Int) - 1 ∧
    (∀ s ∈ [({ atAdd with sp := -1 } : State)], -1 ≤ s.sp.toInt ∧ s.sp.toInt + 1 < s.n.toNat ∧
      (s.mem.read (s.sp.toInt + 1).toNat).tag = true) ∧ base.ls = [] := by decide
theorem witness_PushThenPopRestores :
    Memory.wf atAdd.mem ∧ 0 ≤ ({ atAdd with sp := 0 } : State).sp.toInt ∧
    ({ atAdd with sp := 0 } : State).sp.toInt < atAdd.n.toNat := by decide
/-- Running something else between CALL and RET: any state with the same SP, N and return cell, here one with other registers. -/
theorem witness_CallThenRetResumes :
    (Memory.wf base.mem ∧ 0 ≤ base.sp.toInt ∧ base.sp.toInt < base.n.toNat) ∧
    ∃ t, exec (.call 6) base = .next t ∧ ({ t with r1 := 9, pc := 7 } : State).sp = t.sp ∧
      ({ t with r1 := 9, pc := 7 } : State).n = t.n ∧
      ({ t with r1 := 9, pc := 7 } : State).mem.read base.sp.toInt.toNat = t.mem.read base.sp.toInt.toNat :=
  ⟨by decide, _, rfl, rfl, rfl, rfl⟩
theorem witness_LoopRunsCountTimes : 1 ≤ (1 : Byte).toNat ∧ 1 ≤ (255 : Byte).toNat ∧ 255 ≤ (255 : Byte).toNat := by decide
theorem witness_WriteReplacesTheWholeCell : Memory.wf [(0, Cell.instr 0x1880), (7, Cell.byte 1)] := by decide
theorem witness_BoundsAreCheckedOnEveryAccess :
    (∃ t, exec (.load .r1 32) base = .next t) ∧ (accessAddr (.load .r1 32) base = some 32) ∧
    ({ atAdd with stage := .idle } : State).Inv ∧ atAdd.inProgram = true :=
  ⟨⟨_, rfl⟩, rfl, atAdd_inv .idle trivial, by decide⟩
theorem witness_OnlyLoadProducesInstructionWords :
    Memory.wf atAdd.mem ∧ after (exec (.store 0 .r1) atAdd) (fun t => t.mem.read 0 ≠ atAdd.mem.read 0) = true ∧
    accessAddr (.push .r1) atAdd = some ((31 : Nat) : Int) ∧ 31 < atAdd.n.toNat ∧
    after (tick Config.hardware { rst := false, cmd := .load [0x7800], stop := false } atAdd)
      (fun t => (t.mem.read 0).tag ∧ t.mem.read 0 ≠ atAdd.mem.read 0) = true := by decide
theorem witness_OutOfBoundsHasExactlyItsCauses :
    ({ atAdd with stage := .idle } : State).Inv ∧ (∃ t, runDecoded (.valid (.pop .r1)) atAdd = .next t) ∧
    outOfBoundsCause (.valid (.pop .r1)) atAdd ∧ atAdd.inProgram = true :=
  ⟨atAdd_inv .idle trivial, ⟨_, rfl⟩, by unfold outOfBoundsCause; decide, by decide⟩
theorem witness_LoopStackUnderflowIsEndForsAlone :
    ∃ t, runDecoded (.valid .endFor) base = .next t ∧ t.diag = Diag.loopStackUnderflow.code ∧ base.ls = [] :=
  ⟨_, rfl, rfl, rfl⟩
theorem witness_DiagnosticDropsEveryWrite : ∃ t, runDecoded .malformed base = .next t ∧ t.diag ≠ 0 := ⟨_, rfl, by decide⟩
theorem witness_DiagLogIsSticky : ∃ t, runDecoded .unknown { base with diagLog := 0b1001 } = .next t ∧ t.diagLog = 0b1011 :=
  ⟨_, rfl, by decide⟩
theorem witness_OnlyNamedInstructionsWrite :
    (∃ t, exec (.alloc .r2 4) base = .next t ∧ t.hp ≠ base.hp ∧ t.reg .r2 ≠ base.reg .r2) ∧
    (∃ t, exec (.push .r1) { base with r1 := 8 } = .next t ∧ t.sp ≠ base.sp ∧ t.mem ≠ base.mem) ∧
    (∃ t, exec (.forLoop .r1 3) base = .next t ∧ t.ls ≠ base.ls) ∧
    (∃ t, exec (.add .r1 .r2) base = .next t ∧ t.aluOut ≠ base.aluOut) ∧
    ∃ t, exec (.cmp .r1 .r2) base = .next t ∧ t.zf ≠ base.zf :=
  ⟨⟨_, rfl, by decide, by decide⟩, ⟨_, rfl, by decide, by decide⟩, ⟨_, rfl, by decide⟩, ⟨_, rfl, by decide⟩,
    ⟨_, rfl, by decide⟩⟩
theorem witness_DisplayNeverFeedsBack :
    atAdd.stage = .idle ∧ arch atAdd = arch { atAdd with idleCnt := 3, diag := 2, diagLog := 15, aluOut := ⟨true, 9⟩ } ∧
    (∃ t, step atAdd = .next t) ∧ atAdd.inProgram = true :=
  ⟨rfl, rfl, ⟨_, rfl⟩, by decide⟩
theorem witness_SnapshotIsStable :
    Inputs.stepCmd.rst = false ∧ (∃ t, tick Config.hardware Inputs.stepCmd atAdd = .next t ∧ t.stage = .fetch) ∧
    (∃ t, tick Config.hardware Inputs.quiet { atAdd with stage := .fetch } = .next t) ∧
    ∃ t, tick Config.hardware Inputs.quiet { atAdd with stage := .execute .unknown } = .next t :=
  ⟨rfl, ⟨_, rfl, rfl⟩, ⟨_, rfl⟩, ⟨_, rfl⟩⟩
theorem witness_FiveTicksAreOneStep :
    ({ runInterval := 9, endForZeroWraps := false } : Config).endForZeroWraps = Config.hardware.endForZeroWraps ∧
    atAdd.stage = .idle ∧ atAdd.inProgram = true ∧ Inputs.stepCmd.cmd = .step ∧
    (∀ i ∈ [Inputs.stepCmd, Inputs.quiet, Inputs.quiet, { rst := false, cmd := .run, stop := true }, Inputs.quiet],
      i.rst = false) ∧ ∃ t, step atAdd = .next t :=
  ⟨rfl, rfl, by decide, rfl, by decide, ⟨_, rfl⟩⟩
theorem witness_CadenceChangesNothing :
    ({ runInterval := 2, endForZeroWraps := false } : Config).endForZeroWraps = Config.hardware.endForZeroWraps ∧
    ({ atAdd with run := true } : State).stage = .idle ∧ ({ atAdd with run := true } : State).inProgram = true ∧
    ∃ t, step { atAdd with run := true } = .next t :=
  ⟨rfl, rfl, by decide, ⟨_, rfl⟩⟩
theorem witness_RunIsClearedAsStated :
    (∃ t, tick Config.hardware { rst := false, cmd := .nop, stop := true } { atAdd with run := true } = .next t) ∧
    (∃ t, tick Config.hardware Inputs.quiet { State.reset with run := true } = .next t) ∧ State.reset.halted = true ∧
    (∃ t, tick Config.hardware { rst := true, cmd := .load [], stop := false } atAdd = .next t) ∧
    (∃ t, tick Config.hardware { rst := false, cmd := .load [], stop := false } { atAdd with run := true } = .next t) ∧
    (∃ t, tick Config.hardware { rst := false, cmd := .resize 16, stop := false } { atAdd with run := true } = .next t) ∧
    ({ atAdd with stage := .fetch } : State).stage ≠ .idle ∧
    ∃ t, tick Config.hardware Inputs.quiet { atAdd with stage := .fetch } = .next t :=
  ⟨⟨_, rfl⟩, ⟨_, rfl⟩, by decide, ⟨_, rfl⟩, ⟨_, rfl⟩, ⟨_, rfl⟩, by decide, ⟨_, rfl⟩⟩
theorem witness_RunIsSetOnlyByRun :
    (∃ t, tick Config.hardware { rst := false, cmd := .run, stop := false } atAdd = .next t ∧ t.run = true) ∧
    atAdd.run = false ∧ atAdd.stage = .idle ∧ atAdd.pc.toNat < atAdd.ic.toNat :=
  ⟨⟨_, rfl, rfl⟩, rfl, rfl, by decide⟩
theorem witness_ResetMeetsTheInvariants : 16 ≤ (16 : BitVec 9).toNat ∧ (256 : BitVec 9).toNat ≤ 256 := by decide
theorem witness_OutputsShowTheState : (31 : Byte).toNat < base.n.toNat ∧ base.n.toNat ≤ (32 : Byte).toNat := by decide
/-- STAGE's codes (R32) and an ALUOUT with the valid bit (R241). -/
theorem test_outputs :
    (({ base with stage := .fetch } : State).outputs 0).stage = 1 ∧
    (({ base with stage := .execute .unknown } : State).outputs 0).stage = 3 ∧
    (({ base with aluOut := ⟨true, 3⟩ } : State).outputs 0).aluOut = 0b100000011 := by decide
/-- The input signals with a command code. -/
def pinsWith (code : BitVec 3) : Pins :=
  { rst := false, cmd := code, cmdSize := 64, cmdCount := 17, cmdWords := Vector.replicate 16 0x4001, stop := false }
theorem witness_PinsCarryTheCommand :
    (pinsWith 0).cmd = 0 ∧ (pinsWith 1).cmd = 1 ∧ (pinsWith 2).cmd = 2 ∧ (pinsWith 3).cmd = 3 ∧ (pinsWith 4).cmd = 4 ∧
    5 ≤ (pinsWith 5).cmd.toNat := by decide
/-- A text of n lines RET and then one more line. -/
def rets (n : Nat) (last : List Char) : List Char := (List.replicate n "RET\n".toList).flatten ++ last
/-- The lines of such a text, worked out once. -/
theorem linesOf_rets :
    linesOf (rets 15 "ENDFOR".toList) = List.replicate 15 ["RET".toList] ++ [["ENDFOR".toList]] ∧
    linesOf (rets 15 "PUSH".toList) = List.replicate 15 ["RET".toList] ++ [["PUSH".toList]] ∧
    linesOf (rets 16 "PUSH".toList) = List.replicate 16 ["RET".toList] ++ [["PUSH".toList]] :=
  ⟨rfl, rfl, rfl⟩
/-- At 2, 16 and 17 lines; a line that is refused counts as the sixteenth and not as the seventeenth. -/
theorem witness_AssemblyTruncatesAtSixteen :
    assemble "ENDFOR\nRET".toList = some [0x9000, 0x7800] ∧
    ((linesOf (rets 15 "ENDFOR".toList)).take 16).map asmTokens =
      (List.replicate 15 (0x7800 : Word) ++ [0x9000]).map AsmResult.word ∧
    (∃ l ∈ (linesOf (rets 15 "PUSH".toList)).take 16, asmTokens l = .refused) ∧
    (linesOf (rets 16 "PUSH".toList)).length = 17 ∧
    ((linesOf (rets 16 "PUSH".toList)).take 16).map asmTokens = (List.replicate 16 (0x7800 : Word)).map AsmResult.word ∧
    assemble (rets 16 "PUSH".toList) = some (List.replicate 16 0x7800) := by
  unfold assemble
  rw [linesOf_rets.1, linesOf_rets.2.1, linesOf_rets.2.2]
  decide
theorem witness_BadLinesAssembleToRejectedWords :
    (∀ r ∈ mnemonicRows, r.1 ≠ "NOP".toList) ∧ 1 ≤ 1 ∧ 18 ≤ 18 ∧
    (∀ ch ∈ ['a', '/', ':'], (ch.toNat < 48 ∨ 57 < ch.toNat) ∧ ch ≠ '+' ∧ ch ≠ '-') :=
  ⟨by decide, by decide, by decide, by simp⟩

end Sys2Proof.Tests
end

section
/-! PROOFS. The flag: who writes and who reads ZF (spec/10_state.md R24). A write is a `zf` in the proposal, a read is a
proposal that depends on the state's ZF; both are settled once for `instrOutcome`, and `exec` only retires that proposal. -/

namespace Sys2Proof.Machine

/-- `exec` has one result: the outcome retired. -/
theorem exec_eq_next_iff {i : Instr} {s t : State} :
    exec i s = .next t ↔ s.retire (instrOutcome Config.hardware i s) = t := by
  rw [exec_eq, Host.Outcome.next.injEq]

/-- A checked access proposes no ZF when what it goes on with proposes none: raising drops everything (R262). -/
theorem attempt_zf_eq_none {α : Type} (r : Except Diag α) (pc : Byte) {k : α → Proposal} (hk : ∀ v, (k v).zf = none) :
    (attempt r pc k).zf = none := by
  obtain ⟨d, -, e⟩ | ⟨v, -, e⟩ := attempt_cases r pc k
  · rw [e, Proposal.raise_zf]
  · rw [e, hk v]

/-- ENDFOR proposes no ZF: neither its underflow nor its decrement, at zero or not, touches the flag (R24, R201). -/
theorem endForOutcome_zf_eq_none (c : Config) (s : State) : (endForOutcome c s).zf = none := by
  obtain ⟨-, e⟩ | ⟨f, rest, -, ⟨-, e⟩ | ⟨-, e⟩⟩ := instrOutcome_shape c .endFor s <;>
    exact congrArg Proposal.zf e

/-- Only CMP proposes a ZF (R24). -/
theorem instrOutcome_zf_eq_none (c : Config) {i : Instr} (s : State) (h : ∀ a b, i ≠ .cmp a b) :
    (instrOutcome c i s).zf = none := by
  cases i with
  | cmp a b => exact absurd rfl (h a b)
  | load dst addr => exact attempt_zf_eq_none _ _ fun _ => rfl
  | store addr src => exact attempt_zf_eq_none _ _ fun _ => rfl
  | push reg => exact attempt_zf_eq_none _ _ fun _ => rfl
  | pop reg => exact attempt_zf_eq_none _ _ fun _ => rfl
  | call addr => exact attempt_zf_eq_none _ _ fun _ => rfl
  | ret => exact attempt_zf_eq_none _ _ fun _ => rfl
  | je addr => exact congrArg Proposal.zf (instrOutcome_shape c (.je addr) s)
  | jne addr => exact congrArg Proposal.zf (instrOutcome_shape c (.jne addr) s)
  | endFor => exact endForOutcome_zf_eq_none c s
  | add dst src => rfl
  | sub dst src => rfl
  | and dst src => rfl
  | or dst src => rfl
  | xor dst src => rfl
  | mov dst literal => rfl
  | alloc reg size => rfl
  | forLoop reg count => rfl

/-- Only JE and JNE read ZF: what any other instruction proposes is the same under either value (R24). -/
theorem instrOutcome_of_zf (c : Config) {i : Instr} (s : State) (z : Bool) (hje : ∀ a, i ≠ .je a)
    (hjne : ∀ a, i ≠ .jne a) : instrOutcome c i { s with zf := z } = instrOutcome c i s := by
  cases i with
  | je addr => exact absurd rfl (hje addr)
  | jne addr => exact absurd rfl (hjne addr)
  | _ => rfl

/-- Retiring one proposal under another ZF differs in ZF at most. -/
theorem retire_of_zf (s : State) (p : Proposal) (z : Bool) :
    { ({ s with zf := z } : State).retire p with zf := (s.retire p).zf } = s.retire p := rfl

theorem exec_cmp_zf {a b : Reg} {s t : State} (h : exec (.cmp a b) s = .next t) : t.zf = true ↔ s.reg a = s.reg b := by
  obtain rfl := exec_eq_next_iff.mp h
  have e : instrOutcome Config.hardware (.cmp a b) s = _ := instrOutcome_shape Config.hardware (.cmp a b) s
  rw [e, State.retire_zf, Option.getD_some, equalFlag, decide_eq_true_iff]

theorem exec_zf_of_ne_cmp {i : Instr} {s t : State} (hi : ∀ a b, i ≠ .cmp a b) (h : exec i s = .next t) :
    t.zf = s.zf := by
  obtain rfl := exec_eq_next_iff.mp h
  rw [State.retire_zf, instrOutcome_zf_eq_none _ s hi, Option.getD_none]

theorem exec_je_pc {addr : Byte} {s t : State} (h : exec (.je addr) s = .next t) :
    t.pc = if s.zf then addr else pcNext s.pc := by
  obtain rfl := exec_eq_next_iff.mp h
  exact congrArg Proposal.pc (instrOutcome_shape Config.hardware (.je addr) s)

theorem exec_jne_pc {addr : Byte} {s t : State} (h : exec (.jne addr) s = .next t) :
    t.pc = if s.zf then pcNext s.pc else addr := by
  obtain rfl := exec_eq_next_iff.mp h
  exact congrArg Proposal.pc (instrOutcome_shape Config.hardware (.jne addr) s)

/-- Running anything but JE and JNE under another ZF gives the same state but for ZF. -/
theorem exec_of_zf {i : Instr} {s t : State} (z : Bool) (hje : ∀ a, i ≠ .je a) (hjne : ∀ a, i ≠ .jne a)
    (h : exec i s = .next t) : ∃ u, exec i { s with zf := z } = .next u ∧ { u with zf := t.zf } = t := by
  obtain rfl := exec_eq_next_iff.mp h
  refine ⟨_, exec_eq _ _, ?_⟩
  rw [instrOutcome_of_zf _ s z hje hjne, retire_of_zf]

/-- Settles O22: ZF is written through the proposal's `zf`, which CMP alone fills, and read through the proposal's PC, which
depends on it in JE and JNE alone. -/
theorem zfIsCmpsAlone : Obligations.ZfIsCmpsAlone := by
  refine ⟨fun a b s => ⟨_, exec_eq _ s, exec_cmp_zf (exec_eq _ s)⟩, fun addr s => ?_,
    fun i s t hi h => exec_zf_of_ne_cmp hi h, fun i s t z hje hjne h => exec_of_zf z hje hjne h, rfl⟩
  refine ⟨_, _, exec_eq _ s, exec_eq _ s, ?_, ?_⟩
  · rw [exec_je_pc (exec_eq _ s), apply_ite BitVec.toNat, pcNext_toNat]
  · rw [exec_jne_pc (exec_eq _ s), apply_ite BitVec.toNat, pcNext_toNat]

end Sys2Proof.Machine
end

section
/-! PROOFS. Memory: what a write replaces (spec/20_memory.md R68), which accesses are out of bounds (R65), and who produces
which kind of cell (R62). A write is a `cell` in the proposal and a diagnostic is its `diag`; both are settled for
`instrOutcome`, and `exec` only retires that proposal. -/

namespace Sys2Proof.Machine

open Sys2Proof.Claims

/-! ### Memory after a proposed write -/

/-- A committed write puts the data byte at its address and leaves every other address (R68). -/
theorem Memory.read_memAfter_some {m : Memory} (hw : Memory.wf m) (a : Nat) (v : Byte) (b : Nat) :
    (memAfter m (some (a, v))).read b = if b = a then Cell.byte v else m.read b :=
  Memory.read_write a (Cell.byte v) hw b

/-- A commit changes a cell only to a data byte. -/
theorem Memory.read_memAfter_of_ne {m : Memory} (hw : Memory.wf m) {o : Option (Nat × Byte)} {b : Nat}
    (h : (memAfter m o).read b ≠ m.read b) : ∃ v, (memAfter m o).read b = Cell.byte v := by
  rcases o with _ | ⟨a, v⟩
  · exact absurd rfl h
  · refine ⟨v, ?_⟩
    rw [Memory.read_memAfter_some hw] at h ⊢
    split at h
    · next hb => rw [if_pos hb]
    · exact absurd rfl h

/-- Settles O39: the rule for a read after a committed write, at its address and elsewhere. -/
theorem writeReplacesTheWholeCell : Obligations.WriteReplacesTheWholeCell := by
  intro m a v hw
  refine ⟨?_, fun b hb => ?_⟩
  · rw [Memory.read_memAfter_some hw, if_pos rfl]
  · rw [Memory.read_memAfter_some hw, if_neg hb]

/-! ### Which accesses are out of bounds -/

/-- The DIAG codes tell the diagnostics apart, and from a clean finish (R261, R263). -/
theorem diagCode_eq_code_iff {o : Option Diag} {d : Diag} : diagCode o = d.code ↔ o = some d := by
  rcases o with _ | e
  · cases d <;> decide
  · cases e <;> cases d <;> decide

/-- A checked access raises what the access answers, when what it goes on with raises nothing. -/
theorem attempt_diag_eq_some_iff {α : Type} (r : Except Diag α) (pc : Byte) {k : α → Proposal} {d : Diag}
    (hk : ∀ v, (k v).diag = none) : (attempt r pc k).diag = some d ↔ r = .error d := by
  cases r with
  | error e => simp
  | ok v => simp [hk v]

theorem State.writeAddr_outOfBounds_iff {s : State} {a : Int} :
    s.writeAddr a = .error .outOfBounds ↔ ¬ (0 ≤ a ∧ a < s.n.toNat) := by
  rw [State.writeAddr_error, and_iff_left rfl]
  omega

theorem State.memRead_outOfBounds_iff {s : State} {a : Int} :
    s.memRead a = .error .outOfBounds ↔ ¬ (0 ≤ a ∧ a < s.n.toNat) := by
  simp only [State.memRead_error, reduceCtorEq, and_true, and_false, or_false]
  omega

/-- An instruction with a data access raises OutOfBounds exactly when the address is outside memory (R65). -/
theorem instrOutcome_outOfBounds_iff_of_access (c : Config) {i : Instr} {s : State} {a : Int}
    (h : accessAddr i s = some a) :
    (instrOutcome c i s).diag = some .outOfBounds ↔ ¬ (0 ≤ a ∧ a < s.n.toNat) := by
  cases i with
  | load | pop | ret =>
    cases h
    exact (attempt_diag_eq_some_iff _ _ fun _ => rfl).trans State.memRead_outOfBounds_iff
  | store | push | call =>
    cases h
    exact (attempt_diag_eq_some_iff _ _ fun _ => rfl).trans State.writeAddr_outOfBounds_iff
  | _ => cases h

/-- ENDFOR raises at most its own diagnostic (R201). -/
theorem endForOutcome_diag_ne (c : Config) (s : State) : (endForOutcome c s).diag ≠ some .outOfBounds := by
  obtain ⟨-, e⟩ | ⟨f, rest, -, ⟨-, e⟩ | ⟨-, e⟩⟩ := instrOutcome_shape c .endFor s <;>
    exact ne_of_eq_of_ne (congrArg Proposal.diag e) nofun

/-- An instruction without a data access never raises OutOfBounds (R65). -/
theorem instrOutcome_diag_ne_of_no_access (c : Config) {i : Instr} {s : State} (h : accessAddr i s = none) :
    (instrOutcome c i s).diag ≠ some .outOfBounds := by
  cases i with
  | je addr => exact ne_of_eq_of_ne (congrArg Proposal.diag (instrOutcome_shape c (.je addr) s)) nofun
  | jne addr => exact ne_of_eq_of_ne (congrArg Proposal.diag (instrOutcome_shape c (.jne addr) s)) nofun
  | endFor => exact endForOutcome_diag_ne c s
  | load | store | push | pop | call | ret => cases h
  | _ => exact nofun

theorem exec_diag_outOfBounds_iff {i : Instr} {s t : State} (h : exec i s = .next t) :
    t.diag = Diag.outOfBounds.code ↔ ∃ a, accessAddr i s = some a ∧ ¬ (0 ≤ a ∧ a < s.n.toNat) := by
  obtain rfl := exec_eq_next_iff.mp h
  rw [State.retire_diag, diagCode_eq_code_iff]
  cases ha : accessAddr i s with
  | none => simpa using instrOutcome_diag_ne_of_no_access _ ha
  | some a => simpa using instrOutcome_outOfBounds_iff_of_access _ ha

/-- A fetch is inside memory: `pc < IC ≤ 16 ≤ N` (R43, R65). -/
theorem State.Inv.pc_lt_size {s : State} (hi : s.Inv) (hp : s.inProgram = true) : s.pc.toNat < s.n.toNat :=
  calc s.pc.toNat < s.ic.toNat := of_decide_eq_true hp
    _ ≤ 16 := hi.icHigh
    _ ≤ s.n.toNat := hi.sizeLow

/-- Settles O40: the diagnostic of each outcome against the address of its access, and the program inside memory. -/
theorem boundsAreCheckedOnEveryAccess : Obligations.BoundsAreCheckedOnEveryAccess :=
  ⟨fun _ _ _ h => exec_diag_outOfBounds_iff h, fun _ hi hp => hi.pc_lt_size hp⟩

/-! ### Who produces which kind of cell -/

/-- A checked access proposes no cell when what it goes on with proposes none: raising drops everything (R262). -/
theorem attempt_cell_eq_none {α : Type} (r : Except Diag α) (pc : Byte) {k : α → Proposal}
    (hk : ∀ v, (k v).cell = none) : (attempt r pc k).cell = none := by
  obtain ⟨d, -, e⟩ | ⟨v, -, e⟩ := attempt_cases r pc k
  · rw [e, Proposal.raise_cell]
  · rw [e, hk v]

theorem endForOutcome_cell_eq_none (c : Config) (s : State) : (endForOutcome c s).cell = none := by
  obtain ⟨-, e⟩ | ⟨f, rest, -, ⟨-, e⟩ | ⟨-, e⟩⟩ := instrOutcome_shape c .endFor s <;>
    exact congrArg Proposal.cell e

/-- Only STORE, PUSH and CALL propose a cell (R22, R62). -/
theorem store_push_or_call_of_cell_ne_none (c : Config) {i : Instr} {s : State} (h : (instrOutcome c i s).cell ≠ none) :
    (∃ x r, i = .store x r) ∨ (∃ r, i = .push r) ∨ ∃ x, i = .call x := by
  cases i with
  | store addr src => exact .inl ⟨addr, src, rfl⟩
  | push reg => exact .inr (.inl ⟨reg, rfl⟩)
  | call addr => exact .inr (.inr ⟨addr, rfl⟩)
  | load | pop | ret => exact absurd (attempt_cell_eq_none _ _ fun _ => rfl) h
  | je addr => exact absurd (congrArg Proposal.cell (instrOutcome_shape c (.je addr) s)) h
  | jne addr => exact absurd (congrArg Proposal.cell (instrOutcome_shape c (.jne addr) s)) h
  | endFor => exact absurd (endForOutcome_cell_eq_none c s) h
  | _ => exact absurd rfl h

/-- An instruction changes a cell only to a data byte, and only as STORE, PUSH or CALL (R62). -/
theorem exec_read_of_ne {i : Instr} {s t : State} {a : Nat} (hw : Memory.wf s.mem) (h : exec i s = .next t)
    (hne : t.mem.read a ≠ s.mem.read a) :
    (∃ v, t.mem.read a = Cell.byte v) ∧ ((∃ x r, i = .store x r) ∨ (∃ r, i = .push r) ∨ ∃ x, i = .call x) := by
  obtain rfl := exec_eq_next_iff.mp h
  rw [State.retire_mem] at hne ⊢
  refine ⟨Memory.read_memAfter_of_ne hw hne, store_push_or_call_of_cell_ne_none (s := s) Config.hardware fun hc => hne ?_⟩
  rw [hc, memAfter_none]

/-- STORE inside memory proposes the register's byte at its operand (R131). -/
theorem storeOutcome_cell {addr : Byte} {s : State} (src : Reg) (h : addr.toNat < s.n.toNat) :
    (storeOutcome addr src s).cell = some (addr.toNat, s.reg src) := by
  obtain ⟨hn, -⟩ | ⟨-, e⟩ := instrOutcome_shape Config.hardware (.store addr src) s
  · omega
  · exact congrArg Proposal.cell e

/-- A push with room proposes its byte at SP (R185). -/
theorem pushByte_cell {s : State} {k : Nat} (v next : Byte) (hsp : s.sp.toInt = k) (hk : k < s.n.toNat) :
    (pushByte v next s).cell = some (k, v) := by
  rw [pushByte_ok v next (by omega) (by omega), hsp, Int.toNat_natCast]

/-- The byte an instruction proposes for a cell is what the cell holds afterwards. -/
theorem exec_read_of_cell {i : Instr} {s t : State} {k : Nat} {v : Byte} (hw : Memory.wf s.mem) (h : exec i s = .next t)
    (hc : (instrOutcome Config.hardware i s).cell = some (k, v)) : t.mem.read k = Cell.byte v := by
  obtain rfl := exec_eq_next_iff.mp h
  rw [State.retire_mem, hc, Memory.read_memAfter_some hw, if_pos rfl]

/-- The run control of an Idle tick leaves memory alone. -/
@[simp] theorem State.idleControl_mem (s : State) (c : Config) (cmd : Command) (stop : Bool) :
    (s.idleControl c cmd stop).mem = s.mem := by
  simp only [State.idleControl, apply_ite State.mem, State.haltedTick_mem, ite_self]

/-- What an Idle tick can do to memory: nothing, clear it (`resize`), or take a program (`load`). -/
theorem State.idleTick_mem_cases (s : State) (c : Config) (cmd : Command) (stop : Bool) :
    (s.idleTick c cmd stop).mem = s.mem ∨ (s.idleTick c cmd stop).mem = [] ∨
    ∃ ws, cmd = .load ws ∧ (s.idleTick c cmd stop).mem = s.mem.writeWords 0 (ws.take 16) := by
  cases cmd with
  | resize n =>
    by_cases hn : sizeWf n = true
    · right; left; simp [State.idleTick, hn]
    · left; simp [State.idleTick, hn]
  | load ws => exact .inr (.inr ⟨ws, rfl, rfl⟩)
  | nop | step | run => exact .inl (State.idleControl_mem s c _ stop)

/-- What a tick can do to memory: commit at most one data byte, clear it (`rst`, `resize`), or take a program (`load`). -/
theorem tick_mem_cases {c : Config} {inp : Inputs} {s t : State} (h : tick c inp s = .next t) :
    (∃ o, t.mem = memAfter s.mem o) ∨ t.mem = [] ∨
    ∃ ws, inp.cmd = .load ws ∧ t.mem = s.mem.writeWords 0 (ws.take 16) := by
  obtain ⟨rst, cmd, stop⟩ := inp
  cases rst with
  | true => cases h; exact .inr (.inl rfl)
  | false =>
    rw [tick_live c rfl] at h
    cases hs : (s.stopped stop).stage with
    | idle =>
      rw [stageTick_idle c cmd stop hs] at h
      cases h
      exact ((s.stopped stop).idleTick_mem_cases c cmd stop).imp_left fun e => ⟨none, e⟩
    | fetch =>
      rw [stageTick_fetch c cmd stop hs] at h
      split at h <;> cases h
      exact .inl ⟨none, rfl⟩
    | decode => rw [stageTick_decode c cmd stop hs] at h; cases h; exact .inl ⟨none, rfl⟩
    | execute d => rw [stageTick_execute c cmd stop hs] at h; cases h; exact .inl ⟨none, rfl⟩
    | writeBack d p => rw [stageTick_writeBack c cmd stop hs] at h; cases h; exact .inl ⟨p.cell, rfl⟩

/-- The load port changes only cells below the number of words it takes (R79). -/
theorem Memory.lt_length_of_read_writeWords_ne {m : Memory} (hw : Memory.wf m) {ws : List Word} {a : Nat}
    (h : (m.writeWords 0 ws).read a ≠ m.read a) : a < ws.length := by
  rw [Memory.read_writeWords 0 ws hw] at h
  split at h
  · next hb => exact hb.2
  · exact absurd rfl h

/-- An instruction word that a tick brings into a cell comes from `load`, below address 16 (R62). -/
theorem tick_new_instr_cell {c : Config} {inp : Inputs} {s t : State} {a : Nat} (hw : Memory.wf s.mem)
    (h : tick c inp s = .next t) (htag : (t.mem.read a).tag = true) (hne : t.mem.read a ≠ s.mem.read a) :
    a < 16 ∧ ∃ ws, inp.cmd = .load ws := by
  obtain ⟨o, e⟩ | e | ⟨ws, hcmd, e⟩ := tick_mem_cases h
  · rw [e] at htag hne
    obtain ⟨v, hv⟩ := Memory.read_memAfter_of_ne hw hne
    rw [hv, cell_byte_tag] at htag
    cases htag
  · rw [e] at htag
    cases htag
  · rw [e] at hne
    have hlt := Memory.lt_length_of_read_writeWords_ne hw hne
    exact ⟨hlt.trans_le (List.length_take_le 16 ws), ws, hcmd⟩

/-- Settles O41: a commit writes data bytes only, STORE, PUSH and CALL alone propose one, and of what a tick can do to memory
`load` alone brings instruction words. -/
theorem onlyLoadProducesInstructionWords : Obligations.OnlyLoadProducesInstructionWords := by
  refine ⟨fun _ => rfl, fun _ _ => rfl, fun i s t a hw h hne => exec_read_of_ne hw h hne, ?_,
    fun c inp s t a hw h htag hne => tick_new_instr_cell hw h htag hne⟩
  intro s t k i hw ha hk _ h
  refine ⟨?_, ?_, ?_⟩
  · rintro addr src rfl
    obtain rfl : addr.toNat = k := Int.ofNat_inj.mp (Option.some.inj ha)
    exact exec_read_of_cell hw h (storeOutcome_cell src hk)
  · rintro reg rfl
    exact exec_read_of_cell hw h (pushByte_cell _ _ (Option.some.inj ha) hk)
  · rintro addr rfl
    exact exec_read_of_cell hw h (pushByte_cell _ _ (Option.some.inj ha) hk)

end Sys2Proof.Machine
end

section
/-! PROOFS. Text: a line of tokens with one space between them is cut back into those tokens (spec/30_encoding.md R106), and
the line of a mnemonic with two register operands assembles to its word (R97, R107, R108, R111). -/

namespace Sys2Proof.Machine

/-- What the tokens of a line are: not empty and without white space (R106). -/
def isToken (t : List Char) : Bool := !t.isEmpty && t.all (fun c => !isSpace c)

theorem isToken_iff {t : List Char} : isToken t = true ↔ t ≠ [] ∧ ∀ c ∈ t, isSpace c = false := by
  simp [isToken]

/-- A list without a separator is one piece. -/
theorem splitAtAll_of_no_sep {p : Char → Bool} {t : List Char} (ht : ∀ c ∈ t, p c = false) : splitAtAll p t = [t] := by
  induction t with
  | nil => rfl
  | cons c cs ih =>
    obtain ⟨hc, hcs⟩ := List.forall_mem_cons.mp ht
    simp [splitAtAll, hc, ih hcs]

/-- The first separator ends the first piece. -/
theorem splitAtAll_append_sep {p : Char → Bool} {t : List Char} {c : Char} (ht : ∀ x ∈ t, p x = false) (hc : p c = true)
    (rest : List Char) : splitAtAll p (t ++ c :: rest) = t :: splitAtAll p rest := by
  induction t with
  | nil => simp [splitAtAll, hc]
  | cons x xs ih =>
    obtain ⟨hx, hxs⟩ := List.forall_mem_cons.mp ht
    simp [splitAtAll, hx, ih hxs]

theorem tokensOf_of_isToken {t : List Char} (ht : isToken t = true) : tokensOf t = [t] := by
  obtain ⟨hne, hsp⟩ := isToken_iff.mp ht
  simp [tokensOf, splitAtAll_of_no_sep hsp, hne]

theorem tokensOf_append_space {t : List Char} (ht : isToken t = true) (rest : List Char) :
    tokensOf (t ++ ' ' :: rest) = t :: tokensOf rest := by
  obtain ⟨hne, hsp⟩ := isToken_iff.mp ht
  have hspace : isSpace ' ' = true := by decide
  simp [tokensOf, splitAtAll_append_sep hsp hspace, hne]

theorem spaced_cons_cons (t u : List Char) (us : List (List Char)) :
    spaced (t :: u :: us) = t ++ ' ' :: spaced (u :: us) := rfl

/-- Cutting a line into tokens undoes `spaced` (R106). -/
theorem tokensOf_spaced {ts : List (List Char)} (h : ∀ t ∈ ts, isToken t = true) : tokensOf (spaced ts) = ts := by
  induction ts with
  | nil => rfl
  | cons t us ih =>
    obtain ⟨ht, hus⟩ := List.forall_mem_cons.mp h
    cases us with
    | nil => exact tokensOf_of_isToken ht
    | cons u us => rw [spaced_cons_cons, tokensOf_append_space ht, ih hus]

theorem isToken_regText (r : Reg) : isToken (Reg.text r) = true := by cases r <;> decide

/-- A register's name is read back as its field (R22, R108). -/
theorem regToken_text (r : Reg) : regToken (some (Reg.text r)) = .value r.bit := by cases r <;> rfl

/-- The line of a mnemonic with two register operands assembles to the word of its fields (R97, R111). -/
theorem asmLine_regReg {m : List Char} {op : Nat} (hm : isToken m = true) (hrow : mnemonicRow m = some (op, .regReg))
    (dst src : Reg) : asmLine (spaced [m, Reg.text dst, Reg.text src]) = .word (wordOf op dst.bit src.bit 0) := by
  have ht : ∀ t ∈ [m, Reg.text dst, Reg.text src], isToken t = true := by simp [hm, isToken_regText]
  simp [asmLine, tokensOf_spaced ht, asmTokens, hrow, regToken_text, assembleFields, FieldResult.val]

/-- The word of two registers is the opcode and the two fields, each shifted to its place (R91, R97). -/
theorem wordOf_regReg (op : Nat) (dst src : Reg) :
    wordOf op dst.bit src.bit 0 =
      BitVec.ofNat 16 (op <<< 11) ||| BitVec.ofNat 16 (dst.bit <<< 9) ||| BitVec.ofNat 16 (src.bit <<< 7) := by
  simp only [wordOf, Nat.or_zero, BitVec.ofNat_or]

end Sys2Proof.Machine
end

section
/-! PROOFS. The ALU: ADD, SUB, AND, OR and XOR (spec/41_alu.md R140 to R146). What `aluOutcome` leaves when it is retired is
settled once; the five instructions differ in the result it is given. -/

namespace Sys2Proof.Machine

open Sys2Proof.Claims

/-- The family writes its result to dst and no other register (R140). -/
theorem retire_aluOutcome_reg (dst : Reg) (v : Byte) (s : State) (r : Reg) :
    (s.retire (aluOutcome dst v s)).reg r = if dst = r then v else s.reg r := s.retire_reg _ r

theorem retire_aluOutcome_reg_dst (dst : Reg) (v : Byte) (s : State) : (s.retire (aluOutcome dst v s)).reg dst = v := by
  rw [retire_aluOutcome_reg, if_pos rfl]

theorem finishedClean_retire_aluOutcome (dst : Reg) (v : Byte) (s : State) :
    FinishedClean s (s.retire (aluOutcome dst v s)) where
  stage := rfl
  diag := rfl
  diagLog := BitVec.or_zero
  host := ⟨rfl, rfl, rfl, rfl, rfl⟩

/-- Whatever the result, only dst, ALUOUT and PC change (R140, R141). -/
theorem aluFrame_retire_aluOutcome (dst : Reg) (v : Byte) (s : State) : AluFrame dst s (s.retire (aluOutcome dst v s)) where
  regs r hr := by rw [retire_aluOutcome_reg, if_neg hr.symm]
  zf := rfl
  sp := rfl
  hp := rfl
  ls := rfl
  mem _ := rfl
  pc := pcNext_toNat s.pc
  latch := by rw [retire_aluOutcome_reg_dst]; rfl
  finished := finishedClean_retire_aluOutcome dst v s

/-- An instruction with the family's proposal finishes with its result in dst and everything else framed. -/
theorem exec_of_aluOutcome {i : Instr} {dst : Reg} {v : Byte} {s : State}
    (h : instrOutcome Config.hardware i s = aluOutcome dst v s) :
    ∃ t, exec i s = .next t ∧ t.reg dst = v ∧ AluFrame dst s t :=
  ⟨_, h ▸ exec_eq i s, retire_aluOutcome_reg_dst dst v s, aluFrame_retire_aluOutcome dst v s⟩

/-- The byte difference is the integer one modulo 256 (R7, R143). -/
theorem toNat_sub_emod (x y : Byte) : ((x - y).toNat : Int) = ((x.toNat : Int) - (y.toNat : Int)) % 256 := by
  have hy := y.isLt
  rw [BitVec.toNat_sub]
  omega

/-- Settles O15: the family's proposal with the byte sum, whose value is the sum modulo 256. -/
theorem addWrapsModulo256 : Obligations.AddWrapsModulo256 := by
  intro dst src s
  obtain ⟨t, hexec, hres, hframe⟩ := exec_of_aluOutcome (instrOutcome_shape Config.hardware (.add dst src) s)
  exact ⟨wordOf_regReg 3 dst src, asmLine_regReg (by decide) (by decide) dst src, t, hexec,
    by rw [hres, BitVec.toNat_add], hframe⟩

/-- Settles O16: the family's proposal with the byte difference, read as an integer modulo 256. -/
theorem subWrapsModulo256 : Obligations.SubWrapsModulo256 := by
  intro dst src s
  obtain ⟨t, hexec, hres, hframe⟩ := exec_of_aluOutcome (instrOutcome_shape Config.hardware (.sub dst src) s)
  exact ⟨wordOf_regReg 4 dst src, asmLine_regReg (by decide) (by decide) dst src, t, hexec,
    by rw [hres, toNat_sub_emod], hframe⟩

/-- Settles O17: the family's proposal with the bitwise and. -/
theorem andActsBitwise : Obligations.AndActsBitwise := by
  intro dst src s
  obtain ⟨t, hexec, hres, hframe⟩ := exec_of_aluOutcome (instrOutcome_shape Config.hardware (.and dst src) s)
  exact ⟨wordOf_regReg 5 dst src, asmLine_regReg (by decide) (by decide) dst src, t, hexec,
    fun k _ => by rw [hres, BitVec.getLsbD_and], hframe⟩

/-- Settles O18: the family's proposal with the bitwise inclusive or. -/
theorem orActsBitwise : Obligations.OrActsBitwise := by
  intro dst src s
  obtain ⟨t, hexec, hres, hframe⟩ := exec_of_aluOutcome (instrOutcome_shape Config.hardware (.or dst src) s)
  exact ⟨wordOf_regReg 6 dst src, asmLine_regReg (by decide) (by decide) dst src, t, hexec,
    fun k _ => by rw [hres, BitVec.getLsbD_or], hframe⟩

/-- Settles O19: the family's proposal with the bitwise exclusive or. -/
theorem xorActsBitwise : Obligations.XorActsBitwise := by
  intro dst src s
  obtain ⟨t, hexec, hres, hframe⟩ := exec_of_aluOutcome (instrOutcome_shape Config.hardware (.xor dst src) s)
  exact ⟨wordOf_regReg 7 dst src, asmLine_regReg (by decide) (by decide) dst src, t, hexec,
    fun k _ => by rw [hres, BitVec.getLsbD_xor], hframe⟩

end Sys2Proof.Machine
end

section
/-! PROOFS. Decimal numerals: the text of a byte is a token of digits that is read back as the byte (spec/30_encoding.md R109,
R112), so the line of a mnemonic with one number operand assembles to its word (R97, R111). -/

namespace Sys2Proof.Machine

theorem digitChar_toNat {n : Nat} (h : n < 10) : (digitChar n).toNat = 48 + n := by
  revert n
  decide

theorem isDigit_digitChar {n : Nat} (h : n < 10) : isDigit (digitChar n) = true := by
  rw [isDigit, digitChar_toNat h]
  simp only [Bool.and_eq_true, decide_eq_true_eq]
  omega

/-- No digit is white space, so no digit cuts a token (R106). -/
theorem isSpace_of_isDigit {c : Char} (h : isDigit c = true) : isSpace c = false := by
  simp only [isDigit, Bool.and_eq_true, decide_eq_true_eq] at h
  have hne : c ≠ ' ' := by
    rintro rfl
    exact absurd h.1 (by decide)
  have hle : ¬ c.toNat ≤ 13 := by omega
  simp [isSpace, hne, hle]

theorem decimalText_ne_nil (v : Byte) : decimalText v ≠ [] := by
  unfold decimalText
  split_ifs <;> exact List.cons_ne_nil _ _

theorem isDigit_of_mem_decimalText {v : Byte} {c : Char} (h : c ∈ decimalText v) : isDigit c = true := by
  have hv := v.isLt
  have hd : ∃ n < 10, c = digitChar n := by
    unfold decimalText at h
    split_ifs at h <;> simp only [List.mem_cons, List.not_mem_nil, or_false] at h
    · exact ⟨_, by omega, h⟩
    · obtain h | h := h <;> exact ⟨_, by omega, h⟩
    · obtain h | h | h := h <;> exact ⟨_, by omega, h⟩
  obtain ⟨n, hn, rfl⟩ := hd
  exact isDigit_digitChar hn

theorem isToken_decimalText (v : Byte) : isToken (decimalText v) = true :=
  isToken_iff.mpr ⟨decimalText_ne_nil v, fun _ h => isSpace_of_isDigit (isDigit_of_mem_decimalText h)⟩

/-- The digits of a byte, weighed by their places, are the byte (R109, R112). -/
theorem decimalValue_decimalText (v : Byte) : decimalValue (decimalText v) = v.toNat := by
  have hv := v.isLt
  unfold decimalText decimalValue
  split_ifs with h1 h2
  · simp [digitChar_toNat h1]
  · have hq : v.toNat / 10 < 10 := by omega
    have hr : v.toNat % 10 < 10 := by omega
    simp only [List.foldl_cons, List.foldl_nil, digitChar_toNat hq, digitChar_toNat hr]
    omega
  · have hh : v.toNat / 100 < 10 := by omega
    have hq : v.toNat / 10 % 10 < 10 := by omega
    have hr : v.toNat % 10 < 10 := by omega
    simp only [List.foldl_cons, List.foldl_nil, digitChar_toNat hh, digitChar_toNat hq, digitChar_toNat hr]
    omega

/-- A non-empty numeral up to 255 is read as its value (R109). -/
theorem numToken_of_isDigit {t : List Char} (hne : t ≠ []) (hd : ∀ c ∈ t, isDigit c = true) (hv : decimalValue t ≤ 255) :
    numToken (some t) = .value (decimalValue t) := by
  cases t with
  | nil => exact absurd rfl hne
  | cons c cs => rw [numToken, if_pos (List.all_eq_true.mpr hd), if_pos hv]

theorem numToken_decimalText (v : Byte) : numToken (some (decimalText v)) = .value v.toNat := by
  have hval := decimalValue_decimalText v
  have hle : decimalValue (decimalText v) ≤ 255 := hval ▸ Nat.le_of_lt_succ v.isLt
  rw [numToken_of_isDigit (decimalText_ne_nil v) (fun _ h => isDigit_of_mem_decimalText h) hle, hval]

/-- The line of a mnemonic with one number operand assembles to the word of its fields (R97, R111). -/
theorem asmLine_num {m : List Char} {op : Nat} (hm : isToken m = true) (hrow : mnemonicRow m = some (op, .num))
    (v : Byte) : asmLine (spaced [m, decimalText v]) = .word (wordOf op 0 0 v.toNat) := by
  have ht : ∀ t ∈ [m, decimalText v], isToken t = true := by simp [hm, isToken_decimalText]
  simp [asmLine, tokensOf_spaced ht, asmTokens, hrow, numToken_decimalText, assembleFields, FieldResult.val]

/-- The word of one number is the opcode in its place and the number (R91, R97). -/
theorem wordOf_num (op v : Nat) : wordOf op 0 0 v = BitVec.ofNat 16 (op <<< 11) ||| BitVec.ofNat 16 v := by
  simp only [wordOf, Nat.zero_shiftLeft, Nat.or_zero, BitVec.ofNat_or]

end Sys2Proof.Machine
end

section
/-! PROOFS. The jumps: JE and JNE (spec/43_jumps.md R170, R171). Both propose a PC and nothing else; what such a proposal leaves
when it is retired is settled once, and the two instructions differ in when the PC is the target. -/

namespace Sys2Proof.Machine

open Sys2Proof.Claims

/-- The proposal of a jump to `target`: nothing is written but PC. -/
def jumpProposal (target : Byte) (s : State) : Proposal := { Proposal.advance s.pc with pc := target }

theorem finishedClean_retire_jumpProposal (target : Byte) (s : State) :
    FinishedClean s (s.retire (jumpProposal target s)) where
  stage := rfl
  diag := rfl
  diagLog := BitVec.or_zero
  host := ⟨rfl, rfl, rfl, rfl, rfl⟩

/-- Wherever a jump goes, above N too, it raises nothing and changes PC alone (R170). -/
theorem onlyPcFrame_retire_jumpProposal (target : Byte) (s : State) :
    OnlyPcFrame s (s.retire (jumpProposal target s)) where
  regs := s.retire_reg _
  zf := rfl
  sp := rfl
  hp := rfl
  ls := rfl
  mem _ := rfl
  aluOut := rfl
  finished := finishedClean_retire_jumpProposal target s

/-- An instruction with a jump's proposal ends at the target with everything else framed. -/
theorem exec_of_jumpProposal {i : Instr} {target : Byte} {s : State}
    (h : instrOutcome Config.hardware i s = jumpProposal target s) :
    ∃ t, exec i s = .next t ∧ t.pc = target ∧ OnlyPcFrame s t :=
  ⟨_, h ▸ exec_eq i s, rfl, onlyPcFrame_retire_jumpProposal target s⟩

/-- The CORE is halted when it is Idle with PC at or above IC (R233). -/
theorem State.halted_of_ic_le_pc {s : State} (hidle : s.stage = .idle) (h : s.ic.toNat ≤ s.pc.toNat) : s.halted = true := by
  simp [State.halted, State.inProgram, hidle, h]

/-- A jump to a target at or above IC halts the CORE (R170). -/
theorem halted_of_onlyPcFrame {s t : State} {target : Byte} (hf : OnlyPcFrame s t) (hpc : t.pc = target)
    (h : s.ic.toNat ≤ target.toNat) : t.halted = true :=
  State.halted_of_ic_le_pc hf.finished.stage (by rwa [hf.finished.host.ic, hpc])

theorem pcAdvanced_of_pc_eq_pcNext {s t : State} (h : t.pc = pcNext s.pc) : PcAdvanced s t := by
  rw [PcAdvanced, h, pcNext_toNat]

/-- Settles O23: a jump's proposal whose target is the operand exactly when ZF is 1. -/
theorem jeJumpsWhenZfIsSet : Obligations.JeJumpsWhenZfIsSet := by
  intro addr s
  obtain ⟨t, hexec, hpc, hframe⟩ := exec_of_jumpProposal (instrOutcome_shape Config.hardware (.je addr) s)
  have htaken (hz : s.zf = true) : t.pc = addr := by rw [hpc, hz, if_pos rfl]
  have hfall (hz : s.zf = false) : t.pc = pcNext s.pc := by rw [hpc, hz, if_neg Bool.false_ne_true]
  exact ⟨wordOf_num 10 addr.toNat, asmLine_num (by decide) (by decide) addr, t, hexec, htaken,
    fun hz => pcAdvanced_of_pc_eq_pcNext (hfall hz), fun hz hic => halted_of_onlyPcFrame hframe (htaken hz) hic, hframe⟩

/-- Settles O24: a jump's proposal whose target is the operand exactly when ZF is 0. -/
theorem jneJumpsWhenZfIsClear : Obligations.JneJumpsWhenZfIsClear := by
  intro addr s
  obtain ⟨t, hexec, hpc, hframe⟩ := exec_of_jumpProposal (instrOutcome_shape Config.hardware (.jne addr) s)
  have htaken (hz : s.zf = false) : t.pc = addr := by rw [hpc, hz, if_neg Bool.false_ne_true]
  have hfall (hz : s.zf = true) : t.pc = pcNext s.pc := by rw [hpc, hz, if_pos rfl]
  exact ⟨wordOf_num 11 addr.toNat, asmLine_num (by decide) (by decide) addr, rfl, t, hexec, htaken,
    fun hz => pcAdvanced_of_pc_eq_pcNext (hfall hz), fun hz hic => halted_of_onlyPcFrame hframe (htaken hz) hic, hframe⟩

end Sys2Proof.Machine
end

section
/-! PROOFS. The push: PUSH (spec/44_stack_heap.md R180). What a push with room leaves when it is retired is settled once, for
any byte and any next PC; without room the instruction raises OutOfBounds (R262). -/

namespace Sys2Proof.Machine

open Sys2Proof.Claims

/-- The line of a mnemonic with one register operand assembles to the word of its field (R97, R111). -/
theorem asmLine_reg {m : List Char} {op : Nat} (hm : isToken m = true) (hrow : mnemonicRow m = some (op, .reg))
    (r : Reg) : asmLine (spaced [m, Reg.text r]) = .word (wordOf op r.bit 0 0) := by
  have ht : ∀ t ∈ [m, Reg.text r], isToken t = true := by simp [hm, isToken_regText]
  simp [asmLine, tokensOf_spaced ht, asmTokens, hrow, regToken_text, assembleFields, FieldResult.val]

/-- The word of one register is the opcode and the field, each shifted to its place (R91, R97). -/
theorem wordOf_reg (op : Nat) (r : Reg) :
    wordOf op r.bit 0 0 = BitVec.ofNat 16 (op <<< 11) ||| BitVec.ofNat 16 (r.bit <<< 9) := by
  simp only [wordOf, Nat.zero_shiftLeft, Nat.or_zero, BitVec.ofNat_or]

/-- The proposal of a push with room: `v` at SP, SP - 1, and the next PC (R185). -/
def pushProposal (v next : Byte) (s : State) : Proposal :=
  { Proposal.advance s.pc with cell := some (s.sp.toInt.toNat, v), sp := some (s.sp - 1), pc := next }

theorem pushByte_eq_pushProposal {s : State} (v next : Byte) (h0 : 0 ≤ s.sp.toInt) (hn : s.sp.toInt < s.n.toNat) :
    pushByte v next s = pushProposal v next s := pushByte_ok v next h0 hn

/-- A push leaves the byte in the cell at SP. -/
theorem read_retire_pushProposal {s : State} (hw : Memory.wf s.mem) (v next : Byte) :
    (s.retire (pushProposal v next s)).mem.read s.sp.toInt.toNat = Cell.byte v :=
  (Memory.read_memAfter_some hw _ v _).trans (if_pos rfl)

/-- A push leaves every cell but the one at SP. -/
theorem sameMemBut_retire_pushProposal {s : State} (hw : Memory.wf s.mem) (v next : Byte) :
    SameMemBut s.sp.toInt.toNat s (s.retire (pushProposal v next s)) :=
  fun a ha => (Memory.read_memAfter_some hw _ v a).trans (if_neg ha)

theorem finishedClean_retire_pushProposal (v next : Byte) (s : State) :
    FinishedClean s (s.retire (pushProposal v next s)) where
  stage := rfl
  diag := rfl
  diagLog := BitVec.or_zero
  host := ⟨rfl, rfl, rfl, rfl, rfl⟩

/-- Raising from a state's own PC gives the raised state of R262. -/
theorem retire_raise_eq_raised (d : Diag) (s : State) : s.retire (Proposal.raise d s.pc) = raised d s := rfl

/-- PUSH retires the push of its register's byte, going on to `pc + 1` (R180). -/
theorem exec_push (reg : Reg) (s : State) :
    exec (.push reg) s = .next (s.retire (pushByte (s.reg reg) (pcNext s.pc) s)) := exec_eq (.push reg) s

theorem exec_push_of_room (reg : Reg) {s : State} (h0 : 0 ≤ s.sp.toInt) (hn : s.sp.toInt < s.n.toNat) :
    exec (.push reg) s = .next (s.retire (pushProposal (s.reg reg) (pcNext s.pc) s)) := by
  rw [exec_push, pushByte_eq_pushProposal _ _ h0 hn]

/-- PUSH without room raises OutOfBounds and drops its writes (R180, R262). -/
theorem exec_push_of_no_room (reg : Reg) {s : State} (h : s.sp.toInt < 0 ∨ (s.n.toNat : Int) ≤ s.sp.toInt) :
    exec (.push reg) s = .next (raised .outOfBounds s) := by
  rw [exec_push, pushByte_error _ _ h, retire_raise_eq_raised]

/-- Settles O27: with room the push of the register's byte, at SP = -1 the raise. -/
theorem pushWritesAtSpThenDecrements : Obligations.PushWritesAtSpThenDecrements := by
  intro reg s
  refine ⟨wordOf_reg 12 reg, asmLine_reg (by decide) (by decide) reg, fun hw h0 hn => ?_,
    fun hfull => exec_push_of_no_room reg (by omega)⟩
  exact ⟨_, exec_push_of_room reg h0 (by omega), read_retire_pushProposal hw _ _, sameMemBut_retire_pushProposal hw _ _,
    sp_sub_one h0, s.retire_reg _, rfl, rfl, rfl, rfl, pcNext_toNat s.pc, finishedClean_retire_pushProposal _ _ s⟩

end Sys2Proof.Machine
end

section
/-! PROOFS. The loop entry: FOR (spec/45_loops.md R200). Its proposal writes one register, pushes one frame and goes on to
`pc + 1`, with no case in which it raises; the lines and words of a register and a number stand before it. -/

namespace Sys2Proof.Machine

open Sys2Proof.Claims

/-- The line of a mnemonic with a register and a number operand assembles to the word of its fields (R97, R111). -/
theorem asmLine_regNum {m : List Char} {op : Nat} (hm : isToken m = true) (hrow : mnemonicRow m = some (op, .regNum))
    (r : Reg) (v : Byte) : asmLine (spaced [m, Reg.text r, decimalText v]) = .word (wordOf op r.bit 0 v.toNat) := by
  have ht : ∀ t ∈ [m, Reg.text r, decimalText v], isToken t = true := by simp [hm, isToken_regText, isToken_decimalText]
  simp [asmLine, tokensOf_spaced ht, asmTokens, hrow, regToken_text, numToken_decimalText, assembleFields, FieldResult.val]

/-- The word of a register and a number is the opcode and the register's field, each shifted to its place, and the number
(R91, R97). -/
theorem wordOf_regNum (op : Nat) (r : Reg) (v : Nat) :
    wordOf op r.bit 0 v = BitVec.ofNat 16 (op <<< 11) ||| BitVec.ofNat 16 (r.bit <<< 9) ||| BitVec.ofNat 16 v := by
  simp only [wordOf, Nat.zero_shiftLeft, Nat.or_zero, BitVec.ofNat_or]

/-- FOR writes the count to its register and no other register (R200). -/
theorem retire_forOutcome_reg (reg : Reg) (count : Byte) (s : State) (r : Reg) :
    (s.retire (forOutcome reg count s)).reg r = if reg = r then count else s.reg r := s.retire_reg _ r

/-- FOR pushes the frame of its own pc, not of the next one (R200). -/
theorem retire_forOutcome_ls (reg : Reg) (count : Byte) (s : State) :
    (s.retire (forOutcome reg count s)).ls = { start := s.pc, reg := reg } :: s.ls := rfl

theorem finishedClean_retire_forOutcome (reg : Reg) (count : Byte) (s : State) :
    FinishedClean s (s.retire (forOutcome reg count s)) where
  stage := rfl
  diag := rfl
  diagLog := BitVec.or_zero
  host := ⟨rfl, rfl, rfl, rfl, rfl⟩

/-- Settles O32: FOR retires one proposal, whatever the count and the state, which writes its register, pushes its frame and
raises nothing. -/
theorem forLoadsCounterAndPushesFrame : Obligations.ForLoadsCounterAndPushesFrame := by
  intro reg count s
  have hreg := retire_forOutcome_reg reg count s
  have hcount : (s.retire (forOutcome reg count s)).reg reg = count := by rw [hreg, if_pos rfl]
  have hothers : SameRegsBut reg s (s.retire (forOutcome reg count s)) := fun r hr => by rw [hreg, if_neg hr.symm]
  exact ⟨wordOf_regNum 17 reg count.toNat, asmLine_regNum (by decide) (by decide) reg count,
    s.retire (forOutcome reg count s), exec_eq (.forLoop reg count) s, hcount, retire_forOutcome_ls reg count s, hothers,
    rfl, rfl, rfl, fun _ => rfl, rfl, pcNext_toNat s.pc, finishedClean_retire_forOutcome reg count s⟩

end Sys2Proof.Machine
end

section
/-! PROOFS. The sequencer against the instruction-level function (spec/50_pipeline_run_control.md R224): a busy tick
leaves where the step in flight ends as it was, but for RUN, which `stop` clears; so as many ticks as there are stages left
reach that end. -/

namespace Sys2Proof.Machine

/-! ### STAGE and RUN play no part in what an instruction does -/

/-- An outcome depends on none of STAGE, IR and RUN (R221). -/
theorem decodedOutcome_ignores (c : Config) (d : Decoded) (s : State) (x : Stage) (cell : Cell) (b : Bool) :
    decodedOutcome c d { s with stage := x, ir := cell, run := b } = decodedOutcome c d s :=
  decodedOutcome_congr c d rfl rfl rfl rfl rfl rfl rfl rfl rfl

theorem runDecoded_ignores_stage (d : Decoded) (s : State) (x : Stage) :
    runDecoded d { s with stage := x } = runDecoded d s := by
  rw [runDecoded_eq, runDecoded_eq, decodedOutcome_ignores _ d s]
  rfl

theorem fetchAndRun_ignores_stage (s : State) (x : Stage) : fetchAndRun { s with stage := x } = fetchAndRun s := by
  rw [fetchAndRun_eq, fetchAndRun_eq, decodedOutcome_ignores _ _ s]
  rfl

theorem runDecoded_stopped {d : Decoded} {s t : State} (b : Bool) (h : runDecoded d s = .next t) :
    runDecoded d (s.stopped b) = .next (t.stopped b) := by
  rw [runDecoded_eq] at h ⊢
  cases h
  rw [State.stopped, decodedOutcome_ignores _ d s]
  rfl

/-- A granted fetch ends in the decoded cell run with IR latched, inside memory (R216, R219). -/
theorem fetchAndRun_eq_next_iff {s t : State} :
    fetchAndRun s = .next t ↔ s.pc.toNat < s.n.toNat ∧
      runDecoded (decode (s.mem.read s.pc.toNat)) { s with ir := s.mem.read s.pc.toNat } = .next t := by
  rw [fetchAndRun_eq, runDecoded_eq, decodedOutcome_ignores _ _ s s.stage (s.mem.read _) s.run]
  by_cases hp : s.pc.toNat < s.n.toNat <;> simp [hp]

theorem fetchAndRun_stopped {s t : State} (b : Bool) (h : fetchAndRun s = .next t) :
    fetchAndRun (s.stopped b) = .next (t.stopped b) := by
  rw [fetchAndRun_eq_next_iff] at h ⊢
  exact h.imp_right (runDecoded_stopped b)

theorem fetchAndRun_run {s t : State} (h : fetchAndRun s = .next t) : t.run = s.run := by
  obtain ⟨-, h⟩ := fetchAndRun_eq_next_iff.mp h
  rw [runDecoded_eq] at h
  cases h
  rfl

/-! ### The end of the step in flight -/

/-- How many ticks the step in flight still takes (R217). -/
def Stage.ticksLeft : Stage → Nat
  | .idle => 0
  | .fetch => 4
  | .decode => 3
  | .execute _ => 2
  | .writeBack _ _ => 1

theorem Stage.ticksLeft_eq_zero_iff {x : Stage} : x.ticksLeft = 0 ↔ x = .idle := by
  cases x <;> simp [Stage.ticksLeft]

/-- Where the step in flight ends: in Idle it has ended, elsewhere `step` runs the rest of it (log entry 4). -/
def State.finish (s : State) : Host.Outcome State Fault Refusal := if s.stage = .idle then .next s else step s

theorem State.finish_idle {s : State} (h : s.stage = .idle) : s.finish = .next s := if_pos h

theorem State.finish_busy {s : State} (h : s.stage ≠ .idle) : s.finish = step s := if_neg h

/-- RUN after ticks with these inputs, everything else kept: `stop` at any of them clears it (R235). -/
def State.stoppedBy (s : State) (is : List Inputs) : State := { s with run := s.run && is.all fun i => !i.stop }

theorem State.stoppedBy_nil (s : State) : s.stoppedBy [] = s := by simp [State.stoppedBy]

theorem State.stoppedBy_cons (s : State) (i : Inputs) (is : List Inputs) :
    s.stoppedBy (i :: is) = (s.stopped i.stop).stoppedBy is := by
  simp [State.stoppedBy, State.stopped, Bool.and_assoc]

theorem step_stopped_of_busy {s t : State} (b : Bool) (hs : s.stage ≠ .idle) (h : step s = .next t) :
    step (s.stopped b) = .next (t.stopped b) := by
  cases hx : s.stage with
  | idle => exact absurd hx hs
  | fetch => rw [step_fetch hx] at h; exact (step_fetch (s := s.stopped b) hx).trans (fetchAndRun_stopped b h)
  | decode => rw [step_decode hx] at h; exact (step_decode (s := s.stopped b) hx).trans (runDecoded_stopped b h)
  | execute d => rw [step_execute hx] at h; exact (step_execute (s := s.stopped b) hx).trans (runDecoded_stopped b h)
  | writeBack d p => rw [step_writeBack hx] at h; cases h; exact step_writeBack hx

/-- The diagram of one busy stage: its tick takes one tick off the step in flight and does not move where that ends
(R219 to R222). -/
theorem stageTick_keeps_finish {c : Config} (hc : c.endForZeroWraps = Config.hardware.endForZeroWraps) (cmd : Command)
    (stop : Bool) {s t : State} (hs : s.stage ≠ .idle) (h : step s = .next t) :
    ∃ u, s.stageTick c cmd stop = .next u ∧ u.stage.ticksLeft + 1 = s.stage.ticksLeft ∧ u.finish = .next t := by
  cases hx : s.stage with
  | idle => exact absurd hx hs
  | fetch =>
    rw [step_fetch hx] at h
    obtain ⟨hp, h⟩ := fetchAndRun_eq_next_iff.mp h
    refine ⟨_, (stageTick_fetch c cmd stop hx).trans (if_pos hp), rfl, ?_⟩
    rw [State.finish_busy (by simp), step_decode rfl]
    exact (runDecoded_ignores_stage _ { s with ir := s.mem.read s.pc.toNat } .decode).trans h
  | decode =>
    rw [step_decode hx] at h
    refine ⟨_, stageTick_decode c cmd stop hx, rfl, ?_⟩
    rw [State.finish_busy (by simp), step_execute rfl, runDecoded_ignores_stage, h]
  | execute d =>
    rw [step_execute hx, runDecoded_eq, ← decodedOutcome_config c _ hc] at h
    refine ⟨_, stageTick_execute c cmd stop hx, rfl, ?_⟩
    rw [State.finish_busy (by simp), step_writeBack rfl]
    exact h
  | writeBack d p =>
    rw [step_writeBack hx] at h
    exact ⟨_, stageTick_writeBack c cmd stop hx, rfl, (State.finish_idle rfl).trans h⟩

/-- The same for a whole tick: `stop` clears RUN at once, and with it the RUN of the state the step in flight ends in. -/
theorem tick_keeps_finish {c : Config} (hc : c.endForZeroWraps = Config.hardware.endForZeroWraps) {i : Inputs}
    (hi : i.rst = false) {s t : State} (hs : s.stage ≠ .idle) (h : s.finish = .next t) :
    ∃ u, tick c i s = .next u ∧ u.stage.ticksLeft + 1 = s.stage.ticksLeft ∧ u.finish = .next (t.stopped i.stop) := by
  rw [State.finish_busy hs] at h
  rw [tick_live c hi]
  exact stageTick_keeps_finish hc i.cmd i.stop (s := s.stopped i.stop) hs (step_stopped_of_busy i.stop hs h)

/-! ### Ticks in a row -/

theorem ticks_cons_of_tick {c : Config} {i : Inputs} {s u : State} (h : tick c i s = .next u) (is : List Inputs) :
    ticks c (i :: is) s = ticks c is u := by simp [ticks, h]

/-- As many ticks without `rst` as the step in flight still takes reach its end, whatever the commands. -/
theorem ticks_finish {c : Config} (hc : c.endForZeroWraps = Config.hardware.endForZeroWraps) {is : List Inputs}
    (hi : ∀ i ∈ is, i.rst = false) {s t : State} (hlen : is.length = s.stage.ticksLeft) (h : s.finish = .next t) :
    ticks c is s = .next (t.stoppedBy is) := by
  induction is generalizing s t with
  | nil =>
    rw [State.finish_idle (Stage.ticksLeft_eq_zero_iff.mp hlen.symm)] at h
    rw [ticks, h, State.stoppedBy_nil]
  | cons i is ih =>
    have hs : s.stage ≠ .idle := fun e => by simp [e, Stage.ticksLeft] at hlen
    obtain ⟨u, htick, hleft, hu⟩ := tick_keeps_finish hc (hi i List.mem_cons_self) hs h
    have hlen' : is.length = u.stage.ticksLeft := by rw [List.length_cons] at hlen; omega
    rw [ticks_cons_of_tick htick, ih (fun j hj => hi j (List.mem_cons_of_mem i hj)) hlen' hu, State.stoppedBy_cons]

/-- The tick that takes `step` in Idle inside the program grants it: on to Fetch, IDLECNT kept (R243, log entry 9). -/
theorem tick_step_granted (c : Config) {i : Inputs} (hi : i.rst = false) (hcmd : i.cmd = .step) {s : State}
    (hidle : s.stage = .idle) (hp : s.inProgram = true) :
    tick c i s = .next { s.stopped i.stop with stage := .fetch } := by
  have hp' : (s.stopped i.stop).inProgram = true := hp
  rw [tick_live c hi, hcmd, stageTick_idle c .step i.stop (s := s.stopped i.stop) hidle]
  simp [State.idleTick, State.idleControl, hp']

/-- Settles O49: the grant puts the step in flight with four ticks left, and four ticks reach its end; `stop` at any of the
five clears the RUN that `step` keeps. -/
theorem fiveTicksAreOneStep : Obligations.FiveTicksAreOneStep := by
  intro c s t i0 i1 i2 i3 i4 hc hidle hp hcmd hrst h
  obtain ⟨h0, hrest⟩ := List.forall_mem_cons.mp hrst
  rw [step_idle hidle, if_pos hp] at h
  have hend : ({ s.stopped i0.stop with stage := .fetch } : State).finish = .next (t.stopped i0.stop) := by
    rw [State.finish_busy (by simp), step_fetch rfl, fetchAndRun_ignores_stage, fetchAndRun_stopped i0.stop h]
  rw [ticks_cons_of_tick (tick_step_granted c h0 hcmd hidle hp), ticks_finish hc hrest rfl hend, ← State.stoppedBy_cons,
    State.stoppedBy, fetchAndRun_run h]

end Sys2Proof.Machine
end

section
/-! PROOFS. Diagnostics: the causes of OutOfBounds (spec/60_exceptions.md R264) and of LoopStackUnderflow (R267). The bounds
rule of each access gives the first under the invariant on SP; the second is settled for `instrOutcome`, whose diagnostic the
step commits. -/

namespace Sys2Proof.Machine

open Sys2Proof.Claims

/-! ### OutOfBounds -/

/-- With SP in `-1..N-1` the access of an instruction is outside memory exactly in the cases R264 lists. -/
theorem access_outside_iff_outOfBoundsCause {s : State} (hsp : spInRange s.n s.sp) (i : Instr) :
    (∃ a, accessAddr i s = some a ∧ ¬ (0 ≤ a ∧ a < s.n.toNat)) ↔ outOfBoundsCause (.valid i) s := by
  obtain ⟨hlow, hhigh⟩ := hsp
  cases i with
  | load | store | push | call | pop | ret =>
    simp only [accessAddr, outOfBoundsCause, Option.some.injEq, exists_eq_left']
    omega
  | _ => simp [accessAddr, outOfBoundsCause]

/-- The DIAG a step leaves is the diagnostic its proposal raises (R263). -/
theorem runDecoded_diag_eq_code_iff {d : Decoded} {s t : State} (h : runDecoded d s = .next t) {e : Diag} :
    t.diag = e.code ↔ (decodedOutcome Config.hardware d s).diag = some e := by
  rw [runDecoded_eq] at h
  cases h
  rw [State.retire_diag, diagCode_eq_code_iff]

/-- A rejected word raises its own diagnostic, so the bounds rule of the instructions settles every cell (R98, R99). -/
theorem runDecoded_diag_outOfBounds_iff {s t : State} (hsp : spInRange s.n s.sp) {d : Decoded}
    (h : runDecoded d s = .next t) : t.diag = Diag.outOfBounds.code ↔ outOfBoundsCause d s := by
  cases d with
  | unknown | malformed =>
    rw [runDecoded_diag_eq_code_iff h]
    simp [decodedOutcome, outOfBoundsCause]
  | valid i => exact (exec_diag_outOfBounds_iff h).trans (access_outside_iff_outOfBoundsCause hsp i)

/-- Settles O42: the bounds rule with the invariant on SP, and the program inside memory. -/
theorem outOfBoundsHasExactlyItsCauses : Obligations.OutOfBoundsHasExactlyItsCauses :=
  fun _ hi => ⟨fun _ _ h => runDecoded_diag_outOfBounds_iff hi.sp h, hi.pc_lt_size⟩

/-! ### LoopStackUnderflow -/

/-- ENDFOR raises on the empty loop stack alone (R201, R267). -/
theorem endForOutcome_loopStackUnderflow_iff (c : Config) (s : State) :
    (endForOutcome c s).diag = some .loopStackUnderflow ↔ s.ls = [] := by
  obtain ⟨hls, e⟩ | ⟨f, rest, hls, ⟨-, e⟩ | ⟨-, e⟩⟩ := instrOutcome_shape c .endFor s
  · exact iff_of_true (congrArg Proposal.diag e) hls
  all_goals exact iff_of_false (ne_of_eq_of_ne (congrArg Proposal.diag e) nofun) (by simp [hls])

/-- No instruction but ENDFOR raises LoopStackUnderflow: an access raises OutOfBounds or
MalformedOperand (R269), and the rest raise nothing. -/
theorem instrOutcome_diag_ne_loopStackUnderflow (c : Config) {i : Instr} (s : State) (h : i ≠ .endFor) :
    (instrOutcome c i s).diag ≠ some .loopStackUnderflow := by
  cases i with
  | endFor => exact absurd rfl h
  | load | pop | ret => exact (attempt_diag_eq_some_iff _ _ fun _ => rfl).not.mpr (by simp [State.memRead_error])
  | store | push | call => exact (attempt_diag_eq_some_iff _ _ fun _ => rfl).not.mpr (by simp [State.writeAddr_error])
  | je addr => exact ne_of_eq_of_ne (congrArg Proposal.diag (instrOutcome_shape c (.je addr) s)) nofun
  | jne addr => exact ne_of_eq_of_ne (congrArg Proposal.diag (instrOutcome_shape c (.jne addr) s)) nofun
  | _ => exact nofun

theorem decodedOutcome_loopStackUnderflow_iff (c : Config) (d : Decoded) (s : State) :
    (decodedOutcome c d s).diag = some .loopStackUnderflow ↔ d = .valid .endFor ∧ s.ls = [] := by
  cases d with
  | unknown | malformed => simp [decodedOutcome]
  | valid i =>
    by_cases hi : i = .endFor
    · subst hi
      exact (endForOutcome_loopStackUnderflow_iff c s).trans (and_iff_right rfl).symm
    · exact iff_of_false (instrOutcome_diag_ne_loopStackUnderflow c s hi) (by simp [hi])

/-- ENDFOR on the empty loop stack leaves the raised state (R201, R262). -/
theorem exec_endFor_of_empty {s : State} (h : s.ls = []) : exec .endFor s = .next (raised .loopStackUnderflow s) := by
  rw [exec_eq, instrOutcome, endForOutcome_nil _ h, retire_raise_eq_raised]

/-- Settles O43: the underflow is in the proposal of ENDFOR on the empty loop stack alone, whose next state is the
raised one. -/
theorem loopStackUnderflowIsEndForsAlone : Obligations.LoopStackUnderflowIsEndForsAlone := by
  intro d s t h
  have hcause := (runDecoded_diag_eq_code_iff h).trans (decodedOutcome_loopStackUnderflow_iff _ d s)
  refine ⟨hcause, fun ht => ?_⟩
  obtain ⟨rfl, hls⟩ := hcause.mp ht
  exact (Host.Outcome.next.inj ((exec_endFor_of_empty hls).symm.trans h)).symm

end Sys2Proof.Machine
end

section
/-! PROOFS. The encoding (spec/30_encoding.md R91 to R100): the fields of a word that `wordOf` builds are the ones it was given,
and a word whose must-be-zero bits are clear is built from its own fields; so the decoder and the encoder undo each other. -/

namespace Sys2Proof

open Sys2Proof.Laws.TableRow (opcode Statement)
open Sys2Proof.Claims (tableRow)

/-! ### What the decoder answers -/

/-- A word is an instruction when its opcode has one and its must-be-zero bits are clear (R98). -/
theorem decodeWord_eq_valid_iff {w : Word} {i : Instr} :
    decodeWord w = .valid i ↔ instrOf (opField w) w = some i ∧ w &&& mbzMask (opField w) = 0#16 := by
  unfold decodeWord
  cases instrOf (opField w) w with
  | none => simp
  | some j => by_cases hz : w &&& mbzMask (opField w) = 0#16 <;> simp [hz]

theorem decodeWord_eq_malformed_iff {w : Word} :
    decodeWord w = .malformed ↔ instrOf (opField w) w ≠ none ∧ w &&& mbzMask (opField w) ≠ 0#16 := by
  unfold decodeWord
  cases instrOf (opField w) w with
  | none => simp
  | some j => by_cases hz : w &&& mbzMask (opField w) = 0#16 <;> simp [hz]

theorem decodeWord_eq_unknown_iff {w : Word} : decodeWord w = .unknown ↔ instrOf (opField w) w = none := by
  unfold decodeWord
  cases instrOf (opField w) w with
  | none => simp
  | some j => by_cases hz : w &&& mbzMask (opField w) = 0#16 <;> simp [hz]

theorem decode_instr (w : Word) : decode (Cell.instr w) = decodeWord w := rfl

/-- The opcode numbers of the table are 1 to 18 (R97). -/
theorem opcode_bounds (i : Instr) : 1 ≤ opcode i ∧ opcode i ≤ 18 := by
  cases i <;> exact ⟨by simp [opcode], by simp [opcode]⟩

/-- The instruction of an opcode has that opcode (R97). -/
theorem opcode_of_instrOf {op : Nat} {w : Word} {i : Instr} (h : instrOf op w = some i) : opcode i = op := by
  unfold instrOf at h
  split at h <;> cases h <;> rfl

theorem instrOf_ne_none_iff {op : Nat} {w : Word} : instrOf op w ≠ none ↔ 1 ≤ op ∧ op ≤ 18 := by
  constructor
  · intro h
    obtain ⟨i, hi⟩ := Option.ne_none_iff_exists'.mp h
    rw [← opcode_of_instrOf hi]
    exact opcode_bounds i
  · rintro ⟨hlow, hhigh⟩
    interval_cases op <;> exact Option.some_ne_none _

theorem exists_instrOf_iff {op : Nat} {w : Word} : (∃ i, instrOf op w = some i) ↔ 1 ≤ op ∧ op ≤ 18 :=
  Option.ne_none_iff_exists'.symm.trans instrOf_ne_none_iff

/-- Settles O4: the tag, then whether the opcode has an instruction, then its must-be-zero bits. -/
theorem decoderClassesAreTotal : Obligations.DecoderClassesAreTotal := by
  intro c
  cases ht : c.tag with
  | false => simp [decode, ht]
  | true =>
    have hnone : instrOf (opField c.payload) c.payload = none ↔ opField c.payload = 0 ∨ 18 < opField c.payload := by
      rw [← not_iff_not, ← ne_eq, instrOf_ne_none_iff]
      omega
    simp only [decode, ht, if_true, decodeWord_eq_unknown_iff, decodeWord_eq_malformed_iff, decodeWord_eq_valid_iff,
      hnone, instrOf_ne_none_iff, exists_and_right, exists_instrOf_iff, Bool.true_eq_false, false_or, true_and, and_assoc]

/-! ### The fields of a word -/

/-- Each bit of a word that `wordOf` builds, by the places of its fields (R91). -/
theorem getLsbD_wordOf {k : Nat} (hk : k < 16) (op ra rb imm : Nat) :
    (wordOf op ra rb imm).getLsbD k =
      ((decide (11 ≤ k) && op.testBit (k - 11)) || (decide (9 ≤ k) && ra.testBit (k - 9)) ||
        (decide (7 ≤ k) && rb.testBit (k - 7)) || imm.testBit k) := by
  rw [wordOf, BitVec.getLsbD_ofNat, decide_eq_true hk, Bool.true_and]
  simp only [Nat.testBit_or, Nat.testBit_shiftLeft, ge_iff_le]

theorem ofBit_testBit_zero (r : Reg) : Reg.ofBit (r.bit.testBit 0) = r := by cases r <;> rfl

/-- A register's field is its low bit alone (R22). -/
theorem testBit_regBit_of_pos (r : Reg) {k : Nat} (hk : 1 ≤ k) : r.bit.testBit k = false := by
  have hr : r.bit < 2 ^ 1 := by cases r <;> decide
  exact Nat.testBit_lt_two_pow (hr.trans_le (Nat.pow_le_pow_right (by decide) hk))

theorem testBit_byte (v : Byte) (k : Nat) : v.toNat.testBit k = v.getLsbD k := rfl

theorem raField_wordOf (op : Nat) (ra rb : Reg) (v : Byte) : raField (wordOf op ra.bit rb.bit v.toNat) = ra := by
  have hrb : rb.bit.testBit 2 = false := testBit_regBit_of_pos rb (by decide)
  have hv : v.toNat.testBit 9 = false := BitVec.getLsbD_of_ge v 9 (by decide)
  rw [raField, getLsbD_wordOf (by decide), hrb, hv]
  exact (congrArg Reg.ofBit (by simp)).trans (ofBit_testBit_zero ra)

theorem rbField_wordOf (op ra : Nat) (rb : Reg) : rbField (wordOf op ra rb.bit 0) = rb := by
  rw [rbField, getLsbD_wordOf (by decide)]
  exact (congrArg Reg.ofBit (by simp)).trans (ofBit_testBit_zero rb)

theorem immField_wordOf (op ra : Nat) (v : Byte) : immField (wordOf op ra 0 v.toNat) = v := by
  refine BitVec.eq_of_getLsbD_eq fun k hk => ?_
  have h9 : ¬ 9 ≤ k := by omega
  have h11 : ¬ 11 ≤ k := by omega
  rw [immField, BitVec.getLsbD_extractLsb', Nat.zero_add, getLsbD_wordOf (by omega), testBit_byte]
  simp only [hk, h9, h11, decide_true, decide_false, Bool.false_and, Bool.false_or, Bool.true_and, Nat.zero_testBit,
    Bool.and_false]

/-! ### Decoding an encoding -/

/-- Every instruction's word lies in its own row (R97). -/
theorem encode_statement (i : Instr) : Statement i := by
  cases i with
  | load dst addr => exact Laws.TableRow.load dst addr
  | store addr src => exact Laws.TableRow.store addr src
  | add dst src => exact Laws.TableRow.add dst src
  | sub dst src => exact Laws.TableRow.sub dst src
  | and dst src => exact Laws.TableRow.and dst src
  | or dst src => exact Laws.TableRow.or dst src
  | xor dst src => exact Laws.TableRow.xor dst src
  | mov dst literal => exact Laws.TableRow.mov dst literal
  | cmp a b => exact Laws.TableRow.cmp a b
  | je addr => exact Laws.TableRow.je addr
  | jne addr => exact Laws.TableRow.jne addr
  | push reg => exact Laws.TableRow.push reg
  | pop reg => exact Laws.TableRow.pop reg
  | call addr => exact Laws.TableRow.call addr
  | ret => exact Laws.TableRow.ret
  | alloc reg size => exact Laws.TableRow.alloc reg size
  | forLoop reg count => exact Laws.TableRow.forLoop reg count
  | endFor => exact Laws.TableRow.endFor

/-- The fields of an instruction's word are its operands, format by format (R97). -/
theorem instrOf_encode (i : Instr) : instrOf (opcode i) (encode i) = some i := by
  cases i with
  | load r v | mov r v | alloc r v | forLoop r v =>
    exact congrArg some (congrArg₂ _ (raField_wordOf _ r .r1 v) (immField_wordOf _ r.bit v))
  | store v r => exact congrArg some (congrArg₂ _ (immField_wordOf _ r.bit v) (raField_wordOf _ r .r1 v))
  | add a b | sub a b | and a b | or a b | xor a b | cmp a b =>
    exact congrArg some (congrArg₂ _ (raField_wordOf _ a b 0) (rbField_wordOf _ a.bit b))
  | je v | jne v | call v => exact congrArg some (congrArg _ (immField_wordOf _ 0 v))
  | push r | pop r => exact congrArg some (congrArg _ (raField_wordOf _ r .r1 0))
  | ret | endFor => rfl

/-- Settles O1: the word lies in its instruction's row, and its fields are the operands. -/
theorem decodeEncodeRoundTrip : Obligations.DecodeEncodeRoundTrip := by
  intro i
  obtain ⟨hop, hmbz⟩ := encode_statement i
  rw [decode_instr, decodeWord_eq_valid_iff, hop]
  exact ⟨instrOf_encode i, hmbz⟩

/-! ### Encoding what a word decodes to -/

/-- A bit that a mask covers is clear when the masked word is 0 (R98). -/
theorem getLsbD_of_mbz {w m : Word} (hz : w &&& m = 0#16) {k : Nat} (hm : m.getLsbD k = true) : w.getLsbD k = false := by
  have h := congrArg (BitVec.getLsbD · k) hz
  simpa [hm] using h

theorem testBit_opField {w : Word} {k : Nat} : (opField w).testBit k = (decide (k < 5) && w.getLsbD (11 + k)) :=
  BitVec.getLsbD_extractLsb' 11 5 w k

/-- A word is built from its opcode, bits 9 and 7 and low byte when bits 10 and 8 are clear; bit 7 is shared by `rb` and
`imm` (R91). -/
theorem wordOf_of_bits {w : Word} {op : Nat} {ra rb : Reg} {imm : Byte} (hop : op = opField w)
    (h10 : w.getLsbD 10 = false) (h9 : w.getLsbD 9 = ra.bit.testBit 0) (h8 : w.getLsbD 8 = false)
    (h7 : w.getLsbD 7 = (rb.bit.testBit 0 || imm.getLsbD 7)) (himm : ∀ k < 7, w.getLsbD k = imm.getLsbD k) :
    wordOf op ra.bit rb.bit imm.toNat = w := by
  subst hop
  have hra (k : Nat) (hk : 1 ≤ k) := testBit_regBit_of_pos ra hk
  have hrb (k : Nat) (hk : 1 ≤ k) := testBit_regBit_of_pos rb hk
  refine BitVec.eq_of_getLsbD_eq fun k hk => ?_
  rw [getLsbD_wordOf hk, testBit_byte, testBit_opField]
  by_cases hop : 11 ≤ k
  · rw [hra (k - 9) (by omega), hrb (k - 7) (by omega), imm.getLsbD_of_ge k (by omega), Nat.add_sub_cancel' hop]
    simp only [hop, show k - 11 < 5 by omega, decide_true, Bool.true_and, Bool.and_false, Bool.or_false]
  · by_cases hlow : k < 7
    · simp only [hop, show ¬ 9 ≤ k by omega, show ¬ 7 ≤ k by omega, himm k hlow, decide_false, Bool.false_and, Bool.false_or]
    · obtain rfl | rfl | rfl | rfl : k = 7 ∨ k = 8 ∨ k = 9 ∨ k = 10 := by omega
      · rw [h7]
        simp
      · rw [h8]
        simp [hrb 1]
      · rw [h9]
        simp [hrb 2]
      · rw [h10]
        simp [hra 1, hrb 3]

theorem bit_raField (w : Word) : w.getLsbD 9 = (raField w).bit.testBit 0 := by
  unfold raField
  cases w.getLsbD 9 <;> rfl

theorem bit_rbField (w : Word) : w.getLsbD 7 = (rbField w).bit.testBit 0 := by
  unfold rbField
  cases w.getLsbD 7 <;> rfl

theorem getLsbD_immField (w : Word) {k : Nat} (hk : k < 8) : w.getLsbD k = (immField w).getLsbD k := by
  simp only [immField, BitVec.getLsbD_extractLsb', hk, decide_true, Bool.true_and, Nat.zero_add]

/-- The low bits of a word without operand there. -/
theorem lowBits_of_mbz {w m : Word} (hz : w &&& m = 0#16) (hm : ∀ k < 7, m.getLsbD k = true) (k : Nat) (hk : k < 7) :
    w.getLsbD k = (0 : Byte).getLsbD k :=
  (getLsbD_of_mbz hz (hm k hk)).trans BitVec.getLsbD_zero.symm

/-- Format RI (R92, R97). -/
theorem wordOf_fields_RI {w : Word} {op : Nat} (hop : op = opField w) (hz : w &&& 0x0500#16 = 0#16) :
    wordOf op (raField w).bit 0 (immField w).toNat = w :=
  wordOf_of_bits (rb := .r1) hop (getLsbD_of_mbz hz (by decide)) (bit_raField w) (getLsbD_of_mbz hz (by decide))
    (getLsbD_immField w (by decide)) fun _ hk => getLsbD_immField w (by omega)

/-- Format RR. -/
theorem wordOf_fields_RR {w : Word} {op : Nat} (hop : op = opField w) (hz : w &&& 0x057F#16 = 0#16) :
    wordOf op (raField w).bit (rbField w).bit 0 = w :=
  wordOf_of_bits (imm := 0) hop (getLsbD_of_mbz hz (by decide)) (bit_raField w) (getLsbD_of_mbz hz (by decide))
    ((bit_rbField w).trans (Bool.or_false _).symm) (lowBits_of_mbz hz (by decide))

/-- Format I. -/
theorem wordOf_fields_I {w : Word} {op : Nat} (hop : op = opField w) (hz : w &&& 0x0700#16 = 0#16) :
    wordOf op 0 0 (immField w).toNat = w :=
  wordOf_of_bits (ra := .r1) (rb := .r1) hop (getLsbD_of_mbz hz (by decide)) (getLsbD_of_mbz hz (by decide))
    (getLsbD_of_mbz hz (by decide)) (getLsbD_immField w (by decide)) fun _ hk => getLsbD_immField w (by omega)

/-- Format R. -/
theorem wordOf_fields_R {w : Word} {op : Nat} (hop : op = opField w) (hz : w &&& 0x05FF#16 = 0#16) :
    wordOf op (raField w).bit 0 0 = w :=
  wordOf_of_bits (rb := .r1) (imm := 0) hop (getLsbD_of_mbz hz (by decide)) (bit_raField w)
    (getLsbD_of_mbz hz (by decide)) (getLsbD_of_mbz hz (by decide)) (lowBits_of_mbz hz (by decide))

/-- Format Z. -/
theorem wordOf_fields_Z {w : Word} {op : Nat} (hop : op = opField w) (hz : w &&& 0x07FF#16 = 0#16) :
    wordOf op 0 0 0 = w :=
  wordOf_of_bits (ra := .r1) (rb := .r1) (imm := 0) hop (getLsbD_of_mbz hz (by decide)) (getLsbD_of_mbz hz (by decide))
    (getLsbD_of_mbz hz (by decide)) (getLsbD_of_mbz hz (by decide)) (lowBits_of_mbz hz (by decide))

/-- The instruction read from a word's fields encodes to the word, when its must-be-zero bits are clear (R97, R98). -/
theorem encode_of_instrOf {w : Word} {i : Instr} (h : instrOf (opField w) w = some i)
    (hz : w &&& mbzMask (opField w) = 0#16) : encode i = w := by
  have hop := opcode_of_instrOf h
  rw [← hop] at h hz
  cases i with
  | load | store | mov | alloc | forLoop => cases h; exact wordOf_fields_RI hop hz
  | add | sub | and | or | xor | cmp => cases h; exact wordOf_fields_RR hop hz
  | je | jne | call => cases h; exact wordOf_fields_I hop hz
  | push | pop => cases h; exact wordOf_fields_R hop hz
  | ret | endFor => exact wordOf_fields_Z hop hz

/-- Settles O2: an instruction is read from the fields of a word whose other bits are clear, and those fields are the word. -/
theorem decodeDeterminesTheWord : Obligations.DecodeDeterminesTheWord := by
  intro w i h
  rw [decode_instr, decodeWord_eq_valid_iff] at h
  exact encode_of_instrOf h.1 h.2

/-! ### The opcode table -/

/-- A row's `match` is its opcode in place, its `mask` the opcode field and the must-be-zero bits (opcode_table.json). -/
theorem tableRow_eq (i : Instr) :
    tableRow i = (BitVec.ofNat 16 (opcode i <<< 11), 0xF800#16 ||| mbzMask (opcode i)) := by
  cases i <;> simp [tableRow, opcode, mbzMask]

/-- For each opcode of the table: its mask covers the opcode field and the must-be-zero bits, and its `match` has the opcode
and no bit outside the opcode field. -/
theorem opcode_mask_match {op : Nat} (h1 : 1 ≤ op) (h18 : op ≤ 18) :
    (0xF800#16 ||| mbzMask op).extractLsb' 11 5 = BitVec.allOnes 5 ∧
      (0xF800#16 ||| mbzMask op) &&& mbzMask op = mbzMask op ∧ opField (BitVec.ofNat 16 (op <<< 11)) = op ∧
      BitVec.ofNat 16 (op <<< 11) &&& mbzMask op = 0#16 := by
  interval_cases op <;> decide

/-- The opcode field kept in its place. -/
theorem and_opcodeMask (w : Word) : w &&& 0xF800#16 = BitVec.ofNat 16 (opField w <<< 11) := by
  refine BitVec.eq_of_getLsbD_eq fun k hk => ?_
  have hmask : ∀ k < 16, (0xF800#16).getLsbD k = decide (11 ≤ k) := by decide
  rw [BitVec.getLsbD_and, hmask k hk, BitVec.getLsbD_ofNat, Nat.testBit_shiftLeft, testBit_opField]
  by_cases h : 11 ≤ k
  · simp only [h, hk, show k - 11 < 5 by omega, Nat.add_sub_cancel' h, decide_true, Bool.true_and, Bool.and_true]
  · simp only [h, decide_false, Bool.false_and, Bool.and_false]

/-- A word is in a row exactly when it has the row's opcode and none of its must-be-zero bits (R97). -/
theorem and_mask_eq_match_iff {w : Word} {i : Instr} :
    w &&& (tableRow i).2 = (tableRow i).1 ↔ opField w = opcode i ∧ w &&& mbzMask (opcode i) = 0#16 := by
  obtain ⟨hones, hmask, hop, hmbz⟩ := opcode_mask_match (opcode_bounds i).1 (opcode_bounds i).2
  rw [tableRow_eq]
  dsimp only
  constructor
  · intro h
    constructor
    · rw [← hop, ← h, opField, opField, BitVec.extractLsb'_and, hones, BitVec.and_allOnes]
    · calc w &&& mbzMask (opcode i)
          = w &&& (0xF800#16 ||| mbzMask (opcode i)) &&& mbzMask (opcode i) := by
            rw [BitVec.and_assoc, hmask]
        _ = 0#16 := by rw [h, hmbz]
  · rintro ⟨hopw, hz⟩
    calc w &&& (0xF800#16 ||| mbzMask (opcode i))
        = w &&& 0xF800#16 ||| w &&& mbzMask (opcode i) := by ext k hk; simp [Bool.and_or_distrib_left]
      _ = BitVec.ofNat 16 (opcode i <<< 11) := by rw [hz, BitVec.or_zero, and_opcodeMask, hopw]

/-- An instruction with the same opcode stands in the same row. -/
theorem tableRow_congr {i j : Instr} (h : opcode i = opcode j) : tableRow i = tableRow j := by
  rw [tableRow_eq, tableRow_eq, h]

/-- Settles O3: a word's row is its opcode and its must-be-zero bits, which is what the decoder tests. -/
theorem decodeFollowsTheTable : Obligations.DecodeFollowsTheTable := by
  constructor
  · intro w i h
    rw [← decodeDeterminesTheWord w i h]
    exact and_mask_eq_match_iff.mpr (encode_statement i)
  · intro w i h
    obtain ⟨hop, hz⟩ := and_mask_eq_match_iff.mp h
    obtain ⟨j, hj⟩ := exists_instrOf_iff.mpr (hop ▸ opcode_bounds i : 1 ≤ opField w ∧ opField w ≤ 18)
    exact ⟨j, decodeWord_eq_valid_iff.mpr ⟨hj, hop ▸ hz⟩, tableRow_congr ((opcode_of_instrOf hj).trans hop)⟩

/-- Settles O5: the decoder evaluated on the ten cells. -/
theorem sampleWordsDecode : Obligations.SampleWordsDecode := by
  unfold Obligations.SampleWordsDecode
  decide

end Sys2Proof
end

section
/-! PROOFS. Single instructions: MOV, CMP, LOAD, STORE, POP, CALL, RET, ALLOC and ENDFOR (spec/40_load_store.md,
spec/42_mov_cmp.md, spec/44_stack_heap.md, spec/45_loops.md). What retiring a proposal does to the registers and the display
state is said once, by the fields of the proposal; each instruction then needs its proposal only. -/

namespace Sys2Proof.Machine

open Sys2Proof.Claims

/-! ### Retiring a proposal, by its fields -/

/-- A proposal without a diagnostic finishes clean (R263). -/
theorem finishedClean_retire {s : State} {p : Proposal} (h : p.diag = none) : FinishedClean s (s.retire p) where
  stage := rfl
  diag := by rw [State.retire_diag, h, diagCode_none]
  diagLog := by rw [State.retire_diagLog, h, diagLogBits_none]; exact BitVec.or_zero
  host := ⟨rfl, rfl, rfl, rfl, rfl⟩

theorem sameRegs_retire {s : State} {p : Proposal} (h : p.reg = none) : SameRegs s (s.retire p) :=
  fun r => by rw [State.retire_reg, h, regAfter_none]

theorem retire_reg_dst {s : State} {p : Proposal} {d : Reg} {v : Byte} (h : p.reg = some (d, v)) :
    (s.retire p).reg d = v := by
  rw [State.retire_reg, h, regAfter_some, if_pos rfl]

theorem sameRegsBut_retire {s : State} {p : Proposal} {d : Reg} {v : Byte} (h : p.reg = some (d, v)) :
    SameRegsBut d s (s.retire p) :=
  fun r hr => by rw [State.retire_reg, h, regAfter_some, if_neg hr.symm]

theorem pcAdvanced_retire {s : State} {p : Proposal} (h : p.pc = pcNext s.pc) : PcAdvanced s (s.retire p) :=
  pcAdvanced_of_pc_eq_pcNext h

/-! ### Proposals without a case -/

/-- Settles O20: MOV's one proposal writes its register alone. -/
theorem movWritesTheLiteral : Obligations.MovWritesTheLiteral := fun dst literal s =>
  ⟨_, exec_eq (.mov dst literal) s, retire_reg_dst rfl, sameRegsBut_retire rfl, rfl, rfl, rfl, rfl, fun _ => rfl, rfl,
    pcAdvanced_retire rfl, finishedClean_retire rfl⟩

/-- Settles O21: CMP's one proposal writes ZF alone. -/
theorem cmpWritesOnlyZf : Obligations.CmpWritesOnlyZf := fun a b s =>
  ⟨_, exec_eq (.cmp a b) s, exec_cmp_zf (exec_eq _ s), sameRegs_retire rfl, rfl, rfl, rfl, fun _ => rfl, rfl,
    pcAdvanced_retire rfl, finishedClean_retire rfl⟩

theorem State.heapByte_toNat (s : State) : s.heapByte.toNat = s.hp.toNat % 256 := by
  simp [State.heapByte]

/-- Settles O31: ALLOC's one proposal writes its register and HP, whatever SP and N are. -/
theorem allocHandsOutHp : Obligations.AllocHandsOutHp := by
  intro reg size s
  refine ⟨_, exec_eq (.alloc reg size) s, ?_, s.hpAfter_toNat size, sameRegsBut_retire rfl, rfl, rfl, rfl, fun _ => rfl, rfl,
    pcAdvanced_retire rfl, finishedClean_retire rfl⟩
  rw [retire_reg_dst rfl, State.heapByte_toNat]

/-! ### LOAD and STORE -/

theorem exec_load_of_data {dst : Reg} {addr : Byte} {s : State} (hn : addr.toNat < s.n.toNat)
    (ht : (s.mem.read addr.toNat).tag = false) :
    exec (.load dst addr) s =
      .next (s.retire { Proposal.advance s.pc with reg := some (dst, (s.mem.read addr.toNat).data) }) := by
  have hread : s.memRead (absAddr addr) = .ok (s.mem.read addr.toNat).data :=
    State.memRead_ok.mpr ⟨⟨Int.natCast_nonneg _, Int.ofNat_lt.mpr hn⟩, ht, rfl⟩
  rw [exec_eq, instrOutcome, loadOutcome, hread, attempt_ok]

/-- LOAD raises what its read raises (R130). -/
theorem exec_load_of_error {addr : Byte} {s : State} {d : Diag} (dst : Reg) (h : s.memRead (absAddr addr) = .error d) :
    exec (.load dst addr) s = .next (raised d s) := by
  rw [exec_eq, instrOutcome, loadOutcome, h, attempt_error, retire_raise_eq_raised]

/-- Settles O25: the read of a data cell in bounds answers its byte, which is all that LOAD proposes. -/
theorem loadReadsTheByte : Obligations.LoadReadsTheByte := fun _ _ _ hn ht =>
  ⟨_, exec_load_of_data hn ht, retire_reg_dst rfl, sameRegsBut_retire rfl, rfl, rfl, rfl, rfl, fun _ => rfl, rfl,
    pcAdvanced_retire rfl, finishedClean_retire rfl⟩

theorem exec_store_of_bounds {addr : Byte} {s : State} (src : Reg) (hn : addr.toNat < s.n.toNat) :
    exec (.store addr src) s =
      .next (s.retire { Proposal.advance s.pc with cell := some (addr.toNat, s.reg src) }) := by
  have haddr : s.writeAddr (absAddr addr) = .ok addr.toNat :=
    State.writeAddr_ok.mpr ⟨⟨Int.natCast_nonneg _, Int.ofNat_lt.mpr hn⟩, rfl⟩
  rw [exec_eq, instrOutcome, storeOutcome, haddr, attempt_ok]

theorem exec_store_of_outside {addr : Byte} {s : State} (src : Reg) (hn : s.n.toNat ≤ addr.toNat) :
    exec (.store addr src) s = .next (raised .outOfBounds s) := by
  have haddr : s.writeAddr (absAddr addr) = .error .outOfBounds :=
    State.writeAddr_error.mpr ⟨.inr (Int.ofNat_le.mpr hn), rfl⟩
  rw [exec_eq, instrOutcome, storeOutcome, haddr, attempt_error, retire_raise_eq_raised]

/-- Settles O26: STORE in bounds proposes the byte at its operand's address alone. -/
theorem storeReplacesTheCell : Obligations.StoreReplacesTheCell := fun _ src _ hw hn =>
  ⟨_, exec_store_of_bounds src hn, (Memory.read_memAfter_some hw _ _ _).trans (if_pos rfl),
    fun a ha => (Memory.read_memAfter_some hw _ _ a).trans (if_neg ha), sameRegs_retire rfl, rfl, rfl, rfl, rfl, rfl,
    pcAdvanced_retire rfl, finishedClean_retire rfl⟩

/-! ### The stack -/

/-- The byte a pop reads, above SP (R185). -/
def topByte (s : State) : Byte := (s.mem.read (s.sp.toInt + 1).toNat).data

theorem exec_pop_of_data {reg : Reg} {s : State} (h0 : -1 ≤ s.sp.toInt) (hn : s.sp.toInt + 1 < s.n.toNat)
    (ht : (s.mem.read (s.sp.toInt + 1).toNat).tag = false) :
    exec (.pop reg) s =
      .next (s.retire { Proposal.advance s.pc with reg := some (reg, topByte s), sp := some (s.sp + 1) }) := by
  rw [exec_eq, instrOutcome, popOutcome, popThen_ok _ (by omega) hn ht, topByte]

theorem exec_ret_of_data {s : State} (h0 : -1 ≤ s.sp.toInt) (hn : s.sp.toInt + 1 < s.n.toNat)
    (ht : (s.mem.read (s.sp.toInt + 1).toNat).tag = false) :
    exec .ret s = .next (s.retire { Proposal.advance s.pc with sp := some (s.sp + 1), pc := topByte s }) := by
  rw [exec_eq, instrOutcome, retOutcome, popThen_ok _ (by omega) hn ht, topByte]

/-- POP raises what its read raises (R181). -/
theorem exec_pop_of_error {s : State} {d : Diag} (reg : Reg) (h : s.memRead s.popAddr = .error d) :
    exec (.pop reg) s = .next (raised d s) := by
  rw [exec_eq, instrOutcome, popOutcome, popThen_error _ h, retire_raise_eq_raised]

/-- RET raises what its read raises, and does not jump (R183). -/
theorem exec_ret_of_error {s : State} {d : Diag} (h : s.memRead s.popAddr = .error d) :
    exec .ret s = .next (raised d s) := by
  rw [exec_eq, instrOutcome, retOutcome, popThen_error _ h, retire_raise_eq_raised]

theorem exec_call_of_room (addr : Byte) {s : State} (h0 : 0 ≤ s.sp.toInt) (hn : s.sp.toInt < s.n.toNat) :
    exec (.call addr) s = .next (s.retire (pushProposal (pcNext s.pc) addr s)) := by
  rw [exec_eq, instrOutcome, callOutcome, pushByte_eq_pushProposal _ _ h0 hn, jumpTarget]

/-- CALL without room raises OutOfBounds, and does not jump (R182). -/
theorem exec_call_of_no_room (addr : Byte) {s : State} (h : s.sp.toInt < 0) :
    exec (.call addr) s = .next (raised .outOfBounds s) := by
  rw [exec_eq, instrOutcome, callOutcome, pushByte_error _ _ (.inl h), retire_raise_eq_raised]

/-- Settles O28: the pop of a data cell proposes its byte and SP + 1. -/
theorem popReadsAboveSp : Obligations.PopReadsAboveSp := fun _ _ h256 h0 hn ht =>
  ⟨_, exec_pop_of_data h0 hn ht, retire_reg_dst rfl, sp_add_one (by omega), sameRegsBut_retire rfl, rfl, rfl, rfl,
    fun _ => rfl, rfl, pcAdvanced_retire rfl, finishedClean_retire rfl⟩

/-- Settles O29: CALL with room retires the push of `pc + 1` with its operand as the next PC. -/
theorem callPushesTheReturnAddress : Obligations.CallPushesTheReturnAddress := fun addr s hw h0 hn =>
  ⟨_, pcNext s.pc, exec_call_of_room addr h0 hn, read_retire_pushProposal hw _ _, pcNext_toNat s.pc,
    sameMemBut_retire_pushProposal hw _ _, sp_sub_one h0, rfl, sameRegs_retire rfl, rfl, rfl, rfl, rfl,
    finishedClean_retire rfl⟩

/-- Settles O30: the pop of a data cell proposes its byte as the next PC and SP + 1. -/
theorem retJumpsToTheTopByte : Obligations.RetJumpsToTheTopByte := fun _ h256 h0 hn ht =>
  ⟨_, exec_ret_of_data h0 hn ht, rfl, sp_add_one (by omega), sameRegs_retire rfl, rfl, rfl, rfl, fun _ => rfl, rfl,
    finishedClean_retire rfl⟩

/-- A push with room decrements SP (R185). -/
theorem retire_pushProposal_sp (v next : Byte) (s : State) : (s.retire (pushProposal v next s)).sp = s.sp - 1 := rfl

/-- The cell above SP, after a push, is the one the push wrote (R186). -/
theorem sp_sub_one_toInt_add_one {x : BitVec 9} (h : 0 ≤ x.toInt) : (x - 1).toInt + 1 = x.toInt := by
  rw [sp_sub_one h]
  omega

theorem sp_sub_one_add_one (x : BitVec 9) : x - 1 + 1 = x := BitVec.sub_add_cancel x 1

/-- Settles O36: POP reads the cell that PUSH wrote, because SP + 1 after the push is SP before it. -/
theorem pushThenPopRestores : Obligations.PushThenPopRestores := by
  intro r r' s hw h0 hn
  have hpush := exec_push_of_room r h0 hn
  generalize ht : s.retire (pushProposal (s.reg r) (pcNext s.pc) s) = t at hpush
  have hsp : t.sp.toInt + 1 = s.sp.toInt := by rw [← ht, retire_pushProposal_sp, sp_sub_one_toInt_add_one h0]
  have hcell : t.mem.read (t.sp.toInt + 1).toNat = Cell.byte (s.reg r) := by
    rw [hsp, ← ht, read_retire_pushProposal hw]
  have hsize : t.n = s.n := by rw [← ht]; rfl
  refine ⟨t, _, hpush, exec_pop_of_data (by omega) (by rw [hsp, hsize]; exact hn) (by rw [hcell, cell_byte_tag]), ?_, ?_⟩
  · rw [State.retire_sp, Option.getD_some, ← ht, retire_pushProposal_sp, sp_sub_one_add_one]
  · rw [retire_reg_dst rfl, topByte, hcell, cell_byte_data]

/-- Settles O37: RET reads the cell that CALL wrote, from any state that kept it and SP. -/
theorem callThenRetResumes : Obligations.CallThenRetResumes := by
  intro addr s hw h0 hn
  refine ⟨_, exec_call_of_room addr h0 hn, rfl, fun u husp hun hucell => ?_⟩
  rw [retire_pushProposal_sp] at husp
  rw [read_retire_pushProposal hw] at hucell
  have hsp : u.sp.toInt + 1 = s.sp.toInt := by rw [husp, sp_sub_one_toInt_add_one h0]
  have hcell : u.mem.read (u.sp.toInt + 1).toNat = Cell.byte (pcNext s.pc) := by rw [hsp, hucell]
  have hsize : u.n = s.n := hun
  refine ⟨_, exec_ret_of_data (by omega) (by rw [hsp, hsize]; exact hn) (by rw [hcell, cell_byte_tag]), ?_, ?_⟩
  · refine pcAdvanced_of_pc_eq_pcNext ?_
    rw [State.retire_pc, topByte, hcell, cell_byte_data]
  · rw [State.retire_sp, Option.getD_some, husp, sp_sub_one_add_one]

/-- A read at or above N is out of bounds (R65). -/
theorem State.memRead_above {s : State} {a : Int} (h : (s.n.toNat : Int) ≤ a) : s.memRead a = .error .outOfBounds :=
  State.memRead_error.mpr (.inl ⟨.inr h, rfl⟩)

/-- A read of an instruction word inside memory is a malformed operand (R66). -/
theorem State.memRead_word {s : State} {a : Int} (h0 : 0 ≤ a) (hn : a < s.n.toNat) (ht : (s.mem.read a.toNat).tag = true) :
    s.memRead a = .error .malformedOperand :=
  State.memRead_error.mpr (.inr ⟨⟨h0, hn⟩, ht, rfl⟩)

/-- Settles O35: each form raises what its access raises. -/
theorem failingFormsRaise : Obligations.FailingFormsRaise := by
  intro s
  have hempty (h : s.sp.toInt = (s.n.toNat : Int) - 1) : s.memRead s.popAddr = .error .outOfBounds :=
    State.memRead_above (by rw [State.popAddr]; omega)
  have hword (h0 : -1 ≤ s.sp.toInt) (hn : s.sp.toInt + 1 < s.n.toNat)
      (ht : (s.mem.read (s.sp.toInt + 1).toNat).tag = true) : s.memRead s.popAddr = .error .malformedOperand :=
    State.memRead_word (by rw [State.popAddr]; omega) hn ht
  exact ⟨fun dst addr hn => exec_load_of_error dst (State.memRead_above (Int.ofNat_le.mpr hn)),
    fun dst addr hn ht => exec_load_of_error dst (State.memRead_word (Int.natCast_nonneg _) (Int.ofNat_lt.mpr hn) ht),
    fun addr src hn => exec_store_of_outside src hn,
    fun addr hsp => exec_call_of_no_room addr (by omega),
    fun reg hsp => exec_pop_of_error reg (hempty hsp),
    fun hsp => exec_ret_of_error (hempty hsp),
    fun reg h0 hn ht => exec_pop_of_error reg (hword h0 hn ht),
    fun h0 hn ht => exec_ret_of_error (hword h0 hn ht),
    exec_endFor_of_empty⟩

/-! ### ENDFOR -/

/-- What ENDFOR with a frame proposes besides PC and the loop stack: the count, and nothing else (R201). -/
theorem endForOutcome_frame {c : Config} {s : State} {f : LoopFrame} {rest : List LoopFrame} (h : s.ls = f :: rest) :
    endForOutcome c s =
      { Proposal.advance s.pc with
        reg := some (f.reg, counterDown (s.reg f.reg))
        pc := if loopAgain c (s.reg f.reg) then f.bodyAddr else pcNext s.pc
        loop := if loopAgain c (s.reg f.reg) then none else some .pop } := by
  rw [endForOutcome_cons c h]
  cases loopAgain c (s.reg f.reg) <;> rfl

theorem LoopFrame.bodyAddr_toNat (f : LoopFrame) : f.bodyAddr.toNat = (f.start.toNat + 1) % 256 := pcNext_toNat f.start

/-- Where ENDFOR with a frame goes on: back into the body with the frame kept, or on with the frame popped (R201). -/
theorem retire_endForOutcome_control {c : Config} {s : State} {f : LoopFrame} {rest : List LoopFrame} (h : s.ls = f :: rest)
    {again : Prop} [Decidable again] (ha : loopAgain c (s.reg f.reg) = decide again) :
    if again then (s.retire (endForOutcome c s)).ls = s.ls ∧
      (s.retire (endForOutcome c s)).pc.toNat = (f.start.toNat + 1) % 256
    else (s.retire (endForOutcome c s)).ls = rest ∧ PcAdvanced s (s.retire (endForOutcome c s)) := by
  rw [endForOutcome_frame h, ha]
  by_cases hp : again
  · simp [hp, f.bodyAddr_toNat]
  · simp [hp, h, PcAdvanced, pcNext_toNat]

/-- ENDFOR with a frame counts its register down modulo 256 (R201). -/
theorem retire_endForOutcome_counter {c : Config} {s : State} {f : LoopFrame} {rest : List LoopFrame}
    (h : s.ls = f :: rest) :
    (((s.retire (endForOutcome c s)).reg f.reg).toNat : Int) = (((s.reg f.reg).toNat : Int) - 1) % 256 := by
  rw [endForOutcome_frame h, retire_reg_dst rfl, counterDown_toInt]

/-- Settles O33: at the hardware's parameter ENDFOR loops when the counter was 2 or more. -/
theorem endForCountsTheTopFrameDown : Obligations.EndForCountsTheTopFrameDown := by
  intro s f rest h
  refine ⟨_, exec_eq .endFor s, retire_endForOutcome_counter h, retire_endForOutcome_control h (loopAgain_hardware _), ?_⟩
  rw [instrOutcome, endForOutcome_frame h]
  exact ⟨sameRegsBut_retire rfl, rfl, rfl, rfl, fun _ => rfl, rfl, finishedClean_retire rfl⟩

theorem tick_quiet (c : Config) (s : State) : tick c Inputs.quiet s = s.stageTick c .nop false := by
  rw [tick_live c rfl]
  exact congrArg (State.stageTick · c .nop false) s.stopped_false

/-- Two quiet ticks from Execute retire the proposal of what DEC holds (R221, R222). -/
theorem ticks_two_of_execute (c : Config) {s : State} {d : Decoded} (h : s.stage = .execute d) :
    ticks c [Inputs.quiet, Inputs.quiet] s = .next (s.retire (decodedOutcome c d s)) := by
  rw [ticks_cons_of_tick ((tick_quiet c s).trans (stageTick_execute c .nop false h)),
    ticks_cons_of_tick ((tick_quiet c _).trans (stageTick_writeBack c .nop false rfl))]
  rfl

/-- Settles O34: the two ticks retire ENDFOR's proposal under c, whose test is the one of c's reading. -/
theorem endForUnderEitherReading : Obligations.EndForUnderEitherReading := by
  intro c s f rest hstage h
  refine ⟨_, ticks_two_of_execute c hstage, retire_endForOutcome_counter h, retire_endForOutcome_control h ?_⟩
  rw [decodedOutcome, instrOutcome, endForOutcome_frame h, retire_reg_dst rfl]
  cases hc : c.endForZeroWraps with
  | true => simpa using loopAgain_wraps hc _
  | false => simpa using loopAgain_integer hc _

/-! ### A loop from FOR to its last ENDFOR -/

theorem execTimes_succ_of_exec {i : Instr} {s t : State} (h : exec i s = .next t) (k : Nat) :
    execTimes i (k + 1) s = execTimes i k t := by
  rw [execTimes, h]

/-- From a frame on top with its counter at 1 or more, ENDFOR k times counts k down and pops the frame at the last (R203). -/
theorem execTimes_endFor {f : LoopFrame} {rest : List LoopFrame} {k : Nat} {s : State} (hls : s.ls = f :: rest)
    (h1 : 1 ≤ (s.reg f.reg).toNat) (hk : k ≤ (s.reg f.reg).toNat) :
    ∃ u, execTimes .endFor k s = .next u ∧ (u.reg f.reg).toNat = (s.reg f.reg).toNat - k ∧
      u.ls = if k < (s.reg f.reg).toNat then f :: rest else rest := by
  induction k generalizing s with
  | zero => exact ⟨s, rfl, rfl, hls.trans (if_pos h1).symm⟩
  | succ k ih =>
    have hlt := (s.reg f.reg).isLt
    obtain ⟨t, hexec, hcount, hctl, -⟩ := endForCountsTheTopFrameDown s f rest hls
    have hcount' : (t.reg f.reg).toNat = (s.reg f.reg).toNat - 1 := by omega
    rw [execTimes_succ_of_exec hexec]
    by_cases h2 : 2 ≤ (s.reg f.reg).toNat
    · rw [if_pos h2] at hctl
      obtain ⟨u, hu, hcu, hlu⟩ := ih (hctl.1.trans hls) (by omega) (by omega)
      refine ⟨u, hu, by omega, hlu.trans ?_⟩
      rw [hcount']
      exact if_congr (by omega) rfl rfl
    · rw [if_neg h2] at hctl
      obtain rfl : k = 0 := by omega
      exact ⟨t, rfl, hcount', hctl.1.trans (if_neg (by omega)).symm⟩

/-- Settles O38: FOR leaves its count and its frame on top, from where the ENDFORs count down. -/
theorem loopRunsCountTimes : Obligations.LoopRunsCountTimes := by
  intro reg count s h1
  have hcount : (s.retire (forOutcome reg count s)).reg reg = count := retire_reg_dst rfl
  refine ⟨_, exec_eq (.forLoop reg count) s, fun k hk => ?_⟩
  obtain ⟨u, hu, hcu, hlu⟩ :=
    execTimes_endFor (k := k) (retire_forOutcome_ls reg count s) (by rwa [hcount]) (by rwa [hcount])
  rw [hcount] at hcu hlu
  exact ⟨u, hu, hcu, hlu⟩

end Sys2Proof.Machine
end

section
/-! PROOFS. One step (spec/50_pipeline_run_control.md R216): what is fetched, what the rejected cells raise, and what a step in
flight goes on with. -/

namespace Sys2Proof.Machine

open Sys2Proof.Claims

theorem State.inProgram_iff {s : State} : s.inProgram = true ↔ s.pc.toNat < s.ic.toNat := decide_eq_true_iff

/-- A fetch inside memory latches the cell at pc and runs what it decodes to (R216, R219). -/
theorem fetchAndRun_of_bounds {s : State} (hp : s.pc.toNat < s.n.toNat) :
    fetchAndRun s = runDecoded (decode (s.mem.read s.pc.toNat)) { s with ir := s.mem.read s.pc.toNat } := by
  unfold fetchAndRun
  rw [State.latchIr_eq, if_pos hp]

/-- The step from Idle inside the program. -/
theorem step_granted {s : State} (hidle : s.stage = .idle) (hic : s.pc.toNat < s.ic.toNat) (hn : s.pc.toNat < s.n.toNat) :
    step s = runDecoded (decode (s.mem.read s.pc.toNat)) { s with ir := s.mem.read s.pc.toNat } := by
  rw [step_idle hidle, if_pos (State.inProgram_iff.mpr hic), fetchAndRun_of_bounds hn]

theorem runDecoded_valid (i : Instr) (s : State) : runDecoded (.valid i) s = exec i s := rfl

theorem runDecoded_unknown (s : State) : runDecoded .unknown s = .next (raised .unknownOpcode s) := rfl

theorem runDecoded_malformed (s : State) : runDecoded .malformed s = .next (raised .malformedOperand s) := rfl

/-- Settles O10: the granted step runs what the cell decodes to. -/
theorem stepRunsTheDecodedInstruction : Obligations.StepRunsTheDecodedInstruction := by
  intro s i hidle hic hn hd
  rw [step_granted hidle hic hn, hd, runDecoded_valid]

/-- Settles O11: the granted step raises what a rejected cell raises. -/
theorem stepRaisesOnRejectedCells : Obligations.StepRaisesOnRejectedCells := by
  intro s hidle hic hn
  rw [step_granted hidle hic hn]
  exact ⟨fun hd => by rw [hd, runDecoded_unknown], fun hd => by rw [hd, runDecoded_malformed]⟩

/-- A step in flight was granted inside the program (R43). -/
theorem State.Inv.inProgram_of_busy {s : State} (hi : s.Inv) (hs : s.stage ≠ .idle) : s.inProgram = true := by
  have h := hi.stage
  unfold stageOk at h
  split at h
  · next hidle => exact absurd hidle hs
  · exact h
  · exact h
  · exact h
  · exact h.1

theorem exists_runDecoded (d : Decoded) (s : State) : ∃ t, runDecoded d s = .next t := ⟨_, runDecoded_eq d s⟩

/-- Settles O13: the invariants keep the fetch inside memory, and nothing else stops a step. -/
theorem stepNeverStops : Obligations.StepNeverStops := by
  intro s hi
  have hfetch (hp : s.inProgram = true) : ∃ t, fetchAndRun s = .next t := by
    rw [fetchAndRun_of_bounds (hi.pc_lt_size hp)]
    exact exists_runDecoded _ _
  cases hs : s.stage with
  | idle =>
    rw [step_idle hs]
    by_cases hp : s.inProgram = true
    · rw [if_pos hp]; exact hfetch hp
    · rw [if_neg hp]; exact ⟨_, rfl⟩
  | fetch => rw [step_fetch hs]; exact hfetch (hi.inProgram_of_busy (by simp [hs]))
  | decode => rw [step_decode hs]; exact exists_runDecoded _ _
  | execute d => rw [step_execute hs]; exact exists_runDecoded _ _
  | writeBack d p => rw [step_writeBack hs]; exact ⟨_, rfl⟩

/-- Settles O14: from each busy stage `step` goes on with what that stage latched. -/
theorem stepFinishesAStepInFlight : Obligations.StepFinishesAStepInFlight := by
  intro s
  refine ⟨fun hs hic => ?_, fun hs => ?_, fun i hs => ?_, fun hs => ?_, fun hs => ?_, fun d p hs => ?_⟩
  · have hidle : step { s with stage := .idle } = fetchAndRun { s with stage := .idle } :=
      (step_idle rfl).trans (if_pos (State.inProgram_iff.mpr hic))
    exact (step_fetch hs).trans ((fetchAndRun_ignores_stage s .idle).symm.trans hidle.symm)
  · rw [step_decode hs]
    exact ⟨fun i hd => by rw [hd, runDecoded_valid], fun hd => by rw [hd, runDecoded_unknown],
      fun hd => by rw [hd, runDecoded_malformed]⟩
  · rw [step_execute hs, runDecoded_valid]
  · rw [step_execute hs, runDecoded_unknown]
  · rw [step_execute hs, runDecoded_malformed]
  · exact ⟨_, step_writeBack hs, (tick_quiet _ s).trans (stageTick_writeBack _ _ _ hs)⟩

end Sys2Proof.Machine
end

section
/-! PROOFS. What an instruction writes (spec/10_state.md R22, spec/60_exceptions.md R262, R263): every proposal either raises
and writes nothing, or raises nothing and writes the items the table of state names for its instruction. -/

namespace Sys2Proof.Machine

open Sys2Proof.Claims

/-! ### Raised or clean -/

/-- An access raises with nothing proposed, or goes on with a proposal that raises nothing. -/
theorem attempt_raises_or_clean {α : Type} (r : Except Diag α) (pc : Byte) {k : α → Proposal} (hk : ∀ v, (k v).diag = none) :
    (∃ e, attempt r pc k = Proposal.raise e pc) ∨ (attempt r pc k).diag = none := by
  obtain ⟨d, -, e⟩ | ⟨v, -, e⟩ := attempt_cases r pc k
  · exact .inl ⟨d, e⟩
  · exact .inr (e ▸ hk v)

/-- What was decoded raises with nothing proposed, or raises nothing (R262). -/
theorem decodedOutcome_raises_or_clean (c : Config) (d : Decoded) (s : State) :
    (∃ e, decodedOutcome c d s = Proposal.raise e s.pc) ∨ (decodedOutcome c d s).diag = none := by
  cases d with
  | unknown | malformed => exact .inl ⟨_, rfl⟩
  | valid i =>
    cases i with
    | load | store | push | pop | call | ret => exact attempt_raises_or_clean _ _ fun _ => rfl
    | je addr => exact .inr (congrArg Proposal.diag (instrOutcome_shape c (.je addr) s))
    | jne addr => exact .inr (congrArg Proposal.diag (instrOutcome_shape c (.jne addr) s))
    | endFor =>
      obtain ⟨-, e⟩ | ⟨f, rest, hls, -⟩ := instrOutcome_shape c .endFor s
      · exact .inl ⟨_, e⟩
      · exact .inr (congrArg Proposal.diag (endForOutcome_frame hls))
    | _ => exact .inr rfl

/-- A finished step left the raised state, or DIAG 0 and DIAGLOG as it was (R262, R263). -/
theorem runDecoded_raised_or_clean {d : Decoded} {s t : State} (h : runDecoded d s = .next t) :
    (∃ e, t = raised e s) ∨ (t.diag = 0 ∧ t.diagLog = s.diagLog) := by
  rw [runDecoded_eq] at h
  cases h
  obtain ⟨e, he⟩ | hclean := decodedOutcome_raises_or_clean Config.hardware d s
  · exact .inl ⟨e, by rw [he, retire_raise_eq_raised]⟩
  · have hf := finishedClean_retire (s := s) hclean
    exact .inr ⟨hf.diag, hf.diagLog⟩

/-- Settles O44: a step whose DIAG is not 0 is not clean, so it left the raised state. -/
theorem diagnosticDropsEveryWrite : Obligations.DiagnosticDropsEveryWrite := by
  intro d s t h hdiag
  obtain hr | ⟨h0, -⟩ := runDecoded_raised_or_clean h
  · exact hr
  · exact absurd h0 hdiag

/-- Settles O45: the raised state ors one bit into DIAGLOG, a clean step leaves it. -/
theorem diagLogIsSticky : Obligations.DiagLogIsSticky := by
  intro d s t h
  obtain ⟨e, rfl⟩ | hclean := runDecoded_raised_or_clean h
  · exact .inr ⟨e, rfl, fun k _ => BitVec.getLsbD_or⟩
  · exact .inl hclean

/-! ### The items written -/

/-- The items a proposal or an instruction writes, memory and the loop stack apart. -/
structure Footprint where
  reg : Option Reg := none
  zf : Bool := false
  sp : Bool := false
  hp : Bool := false
  alu : Bool := false

/-- The items a proposal writes. -/
def Proposal.footprint (p : Proposal) : Footprint where
  reg := p.reg.map Prod.fst
  zf := p.zf.isSome
  sp := p.sp.isSome
  hp := p.hp.isSome
  alu := p.alu.isSome

/-- The written-by column of R22's table, read by instruction, with ALUOUT's of R36. -/
def footprint (s : State) : Instr → Footprint
  | .load dst _ | .mov dst _ | .forLoop dst _ => { reg := some dst }
  | .add dst _ | .sub dst _ | .and dst _ | .or dst _ | .xor dst _ => { reg := some dst, alu := true }
  | .cmp _ _ => { zf := true }
  | .store _ _ | .je _ | .jne _ => {}
  | .push _ | .call _ => { sp := true }
  | .pop reg => { reg := some reg, sp := true }
  | .ret => { sp := true }
  | .alloc reg _ => { reg := some reg, hp := true }
  | .endFor => { reg := s.ls.head?.map LoopFrame.reg }

theorem attempt_footprint {α : Type} (r : Except Diag α) (pc : Byte) {k : α → Proposal} {f : Footprint}
    (hk : ∀ v, (k v).footprint = f) : (attempt r pc k).footprint = {} ∨ (attempt r pc k).footprint = f := by
  obtain ⟨d, -, e⟩ | ⟨v, -, e⟩ := attempt_cases r pc k
  · exact .inl (congrArg Proposal.footprint e)
  · exact .inr (e ▸ hk v)

/-- An instruction proposes the items of its row, or none of them. -/
theorem instrOutcome_footprint (c : Config) (i : Instr) (s : State) :
    (instrOutcome c i s).footprint = {} ∨ (instrOutcome c i s).footprint = footprint s i := by
  cases i with
  | load | store | push | pop | call | ret => exact attempt_footprint _ _ fun _ => rfl
  | je addr => exact .inr (congrArg Proposal.footprint (instrOutcome_shape c (.je addr) s))
  | jne addr => exact .inr (congrArg Proposal.footprint (instrOutcome_shape c (.jne addr) s))
  | endFor =>
    obtain ⟨-, e⟩ | ⟨f, rest, hls, -⟩ := instrOutcome_shape c .endFor s
    · exact .inl (congrArg Proposal.footprint e)
    · refine .inr ((congrArg Proposal.footprint (endForOutcome_frame hls)).trans ?_)
      rw [footprint, hls]
      rfl
  | _ => exact .inr rfl

/-- An item that a proposal writes is one of its instruction's items. -/
theorem footprint_of_written {c : Config} {i : Instr} {s : State} {item : Footprint → Bool} (hitem : item {} = false)
    (h : item (instrOutcome c i s).footprint = true) : item (footprint s i) = true := by
  obtain e | e := instrOutcome_footprint c i s <;> rw [e] at h
  · exact absurd (h.symm.trans hitem) Bool.noConfusion
  · exact h

/-- Only FOR and ENDFOR propose a push or pop of the loop stack (R28). -/
theorem for_or_endFor_of_loop_ne_none {c : Config} {i : Instr} {s : State} (h : (instrOutcome c i s).loop ≠ none) :
    (∃ r n, i = .forLoop r n) ∨ i = .endFor := by
  cases i with
  | forLoop r n => exact .inl ⟨r, n, rfl⟩
  | endFor => exact .inr rfl
  | load | store | push | pop | call | ret =>
    refine absurd ?_ h
    obtain ⟨d, -, e⟩ | ⟨v, -, e⟩ := attempt_cases _ s.pc _ <;> exact congrArg Proposal.loop e
  | je addr => exact absurd (congrArg Proposal.loop (instrOutcome_shape c (.je addr) s)) h
  | jne addr => exact absurd (congrArg Proposal.loop (instrOutcome_shape c (.jne addr) s)) h
  | _ => exact absurd rfl h

/-- A value that an optional write changes was written. -/
theorem isSome_of_getD_ne {α : Type} {o : Option α} {a : α} (h : o.getD a ≠ a) : o.isSome = true := by
  cases o with
  | none => exact absurd rfl h
  | some b => rfl

theorem isSome_of_aluAfter_ne {a : AluOut} {o : Option Byte} (h : aluAfter a o ≠ a) : o.isSome = true := by
  cases o with
  | none => exact absurd rfl h
  | some v => rfl

theorem map_fst_of_regAfter_ne {r : Reg} {v : Byte} {o : Option (Reg × Byte)} (h : regAfter r v o ≠ v) :
    o.map Prod.fst = some r := by
  rcases o with _ | ⟨d, w⟩
  · exact absurd rfl h
  · rw [regAfter_some] at h
    by_cases hd : d = r
    · exact congrArg some hd
    · exact absurd (if_neg hd) h

/-- The register a proposal writes is the one of its instruction's row. -/
theorem footprint_reg_of_written {c : Config} {i : Instr} {s : State} {r : Reg}
    (h : (instrOutcome c i s).footprint.reg = some r) : (footprint s i).reg = some r := by
  obtain e | e := instrOutcome_footprint c i s <;> rw [e] at h
  · cases h
  · exact h

/-- Settles O46: an item that changed was proposed, and the rows with that item are the ones named. -/
theorem onlyNamedInstructionsWrite : Obligations.OnlyNamedInstructionsWrite := by
  intro i s t h
  obtain rfl := exec_eq_next_iff.mp h
  refine ⟨fun hne => ?_, fun hne => ?_, fun hne => ?_, fun hne => ?_, fun hne => ?_, fun hne => ?_, fun r hne => ?_,
    ⟨rfl, rfl, rfl, rfl, rfl⟩⟩
  · have hsp := footprint_of_written (item := Footprint.sp) rfl (isSome_of_getD_ne hne)
    cases i <;> simp [footprint] at hsp ⊢
  · have hhp := footprint_of_written (item := Footprint.hp) rfl (isSome_of_getD_ne hne)
    cases i <;> simp [footprint] at hhp ⊢
  · exact for_or_endFor_of_loop_ne_none fun hl => hne (congrArg (loopAfter s.ls) hl)
  · exact store_push_or_call_of_cell_ne_none _ fun hc => hne (congrArg (memAfter s.mem) hc)
  · have halu := footprint_of_written (item := Footprint.alu) rfl (isSome_of_aluAfter_ne hne)
    cases i <;> simp [footprint] at halu ⊢
  · have hzf := footprint_of_written (item := Footprint.zf) rfl (isSome_of_getD_ne hne)
    cases i <;> simp [footprint] at hzf ⊢
  · rw [State.retire_reg] at hne
    have hreg := footprint_reg_of_written (map_fst_of_regAfter_ne hne)
    cases i <;> simp_all [footprint, List.head?_eq_some_iff]

/-! ### The architectural state alone -/

theorem arch_eq_iff {s u : State} :
    arch u = arch s ↔ u.mem = s.mem ∧ u.r1 = s.r1 ∧ u.r2 = s.r2 ∧ u.zf = s.zf ∧ u.pc = s.pc ∧ u.sp = s.sp ∧ u.hp = s.hp ∧
      u.ls = s.ls ∧ u.ic = s.ic ∧ u.n = s.n := by
  simp only [arch, Prod.mk.injEq]

theorem inProgram_of_arch {s u : State} (h : arch u = arch s) : u.inProgram = s.inProgram := by
  obtain ⟨-, -, -, -, hpc, -, -, -, hic, -⟩ := arch_eq_iff.mp h
  rw [State.inProgram, State.inProgram, hpc, hic]

/-- An outcome depends on the architectural state alone (R221). -/
theorem decodedOutcome_of_arch (c : Config) (d : Decoded) {s u : State} (h : arch u = arch s) :
    decodedOutcome c d u = decodedOutcome c d s := by
  obtain ⟨hm, h1, h2, hz, hpc, hsp, hhp, hls, -, hn⟩ := arch_eq_iff.mp h
  exact decodedOutcome_congr c d hm h1 h2 hz hpc hsp hhp hls hn

/-- One proposal leaves the same architectural state from the same one. -/
theorem arch_retire_of_arch {s u : State} (h : arch u = arch s) (p : Proposal) : arch (u.retire p) = arch (s.retire p) := by
  obtain ⟨hm, h1, h2, hz, -, hsp, hhp, hls, hic, hn⟩ := arch_eq_iff.mp h
  simp only [arch, State.retire_mem, State.retire_r1, State.retire_r2, State.retire_zf, State.retire_pc, State.retire_sp,
    State.retire_hp, State.retire_ls, State.retire_ic, State.retire_n, hm, h1, h2, hz, hsp, hhp, hls, hic, hn]

/-- A fetch from the same architectural state retires the same proposal with the same cell latched. -/
theorem fetchAndRun_of_arch {s t u : State} (h : arch u = arch s) (hs : fetchAndRun s = .next t) :
    ∃ v, fetchAndRun u = .next v ∧ arch v = arch t ∧ v.diag = t.diag ∧ v.ir = t.ir := by
  obtain ⟨hm, -, -, -, hpc, -, -, -, -, hn⟩ := arch_eq_iff.mp h
  rw [fetchAndRun_eq] at hs
  split at hs
  · next hp =>
    cases hs
    have hu : fetchAndRun u = .next (({ u with ir := s.mem.read s.pc.toNat } : State).retire
        (decodedOutcome Config.hardware (decode (s.mem.read s.pc.toNat)) s)) := by
      rw [fetchAndRun_eq, decodedOutcome_of_arch _ _ h, hpc, hn, hm, if_pos hp]
    have hlatched : arch { u with ir := s.mem.read s.pc.toNat } = arch { s with ir := s.mem.read s.pc.toNat } := h
    exact ⟨_, hu, arch_retire_of_arch hlatched _, rfl, rfl⟩
  · cases hs

/-- Settles O47: the gate, the cell fetched, the outcome and what it writes depend on the architectural state alone. -/
theorem displayNeverFeedsBack : Obligations.DisplayNeverFeedsBack := by
  intro s u t hs hu harch h
  rw [step_idle hs] at h
  rw [step_idle hu, inProgram_of_arch harch.symm]
  by_cases hp : s.inProgram = true
  · rw [if_pos hp] at h ⊢
    obtain ⟨v, hv, ha, hd, hir⟩ := fetchAndRun_of_arch harch.symm h
    exact ⟨v, hv, ha, fun _ => ⟨hd, hir⟩⟩
  · rw [if_neg hp] at h ⊢
    cases h
    exact ⟨_, rfl, harch.symm, fun hp' => absurd hp' hp⟩

end Sys2Proof.Machine
end

section
/-! PROOFS. The host's commands, the run control and the ports (spec/50_pipeline_run_control.md R223, R231 to R243,
spec/70_reset_and_hazards.md R300 to R302, spec/10_state.md R41). What an Idle tick does with each command is said once; outside
Idle a tick differs under another command or `stop` in RUN only. -/

namespace Sys2Proof.Machine

open Sys2Proof.Claims

/-! ### Idle ticks, command by command -/

theorem tick_idle (c : Config) {inp : Inputs} {s : State} (hrst : inp.rst = false) (hidle : s.stage = .idle) :
    tick c inp s = .next ((s.stopped inp.stop).idleTick c inp.cmd inp.stop) := by
  rw [tick_live c hrst, stageTick_idle (s := s.stopped inp.stop) c _ _ hidle]

theorem sizeWf_iff {n : BitVec 9} : sizeWf n = true ↔ 16 ≤ n.toNat ∧ n.toNat ≤ 256 := by simp [sizeWf]

theorem idleTick_resize_of_legal (s : State) (c : Config) {n : BitVec 9} (stop : Bool) (h : sizeWf n = true) :
    s.idleTick c (.resize n) stop = State.resize n := if_pos h

/-- A `resize` outside 16..256 comes to the run control as no command (R243; D24). -/
theorem idleTick_resize_of_illegal (s : State) (c : Config) {n : BitVec 9} (stop : Bool) (h : ¬ sizeWf n = true) :
    s.idleTick c (.resize n) stop = s.idleTick c .nop stop := if_neg h

theorem idleTick_load (s : State) (c : Config) (ws : List Word) (stop : Bool) : s.idleTick c (.load ws) stop = s.load ws :=
  rfl

/-- HP after a resetting event of a legal size (R42). -/
theorem heapBase_toNat {n : BitVec 9} (h : 16 ≤ n.toNat) : (heapBase n).toNat = 16 := by
  rw [heapBase, Nat.min_eq_left h]
  rfl

/-- The topmost cell's address as SP (R42). -/
theorem size_sub_one_toInt {n : BitVec 9} (h16 : 16 ≤ n.toNat) (h256 : n.toNat ≤ 256) :
    (n - 1).toInt = (n.toNat : Int) - 1 := by
  have e : (n - 1).toNat = n.toNat - 1 := by rw [BitVec.toNat_sub]; simp; omega
  rw [sp_toInt, e, if_pos (by omega)]
  omega

theorem State.halted_iff {s : State} : s.halted = true ↔ s.stage = .idle ∧ s.ic.toNat ≤ s.pc.toNat := by
  simp [State.halted, State.inProgram]

/-- Settles O6: the fields of the reset state, which `rst` answers before anything else is looked at. -/
theorem resetLeavesPowerOnValues : Obligations.ResetLeavesPowerOnValues :=
  ⟨fun _ => rfl, rfl, rfl, rfl, rfl, rfl, by decide, rfl, rfl, rfl, rfl, by decide, by decide, rfl, rfl, rfl, rfl, rfl,
    fun c cmd stop s => tick_rst c cmd stop s⟩

/-- Settles O7: the tick is `State.resize`, whose fields are the resize column. -/
theorem resizeResetsEverything : Obligations.ResizeResetsEverything := by
  intro c s n stop hidle h16 h256
  have hlegal : sizeWf n = true := sizeWf_iff.mpr ⟨h16, h256⟩
  refine ⟨State.resize n, ?_, rfl, fun _ => rfl, fun r => by cases r <;> rfl, rfl, rfl, size_sub_one_toInt h16 h256,
    heapBase_toNat h16, rfl, rfl, rfl, by simp [Cell.bits], by simp [AluOut.bits], rfl, rfl, rfl, rfl, rfl⟩
  rw [tick_idle c rfl hidle, idleTick_resize_of_legal _ _ _ hlegal]

/-- Outside Idle a tick looks at no command (R223). -/
theorem stageTick_ignores_command (c : Config) {s : State} (hs : s.stage ≠ .idle) (cmd cmd' : Command) (stop stop' : Bool) :
    s.stageTick c cmd stop = s.stageTick c cmd' stop' := by
  cases hx : s.stage with
  | idle => exact absurd hx hs
  | fetch => rw [stageTick_fetch _ _ _ hx, stageTick_fetch _ _ _ hx]
  | decode => rw [stageTick_decode _ _ _ hx, stageTick_decode _ _ _ hx]
  | execute d => rw [stageTick_execute _ _ _ hx, stageTick_execute _ _ _ hx]
  | writeBack d p => rw [stageTick_writeBack _ _ _ hx, stageTick_writeBack _ _ _ hx]

/-- Settles O8: the run control sees no command in Idle, and no stage looks at one elsewhere. -/
theorem resizeOutsideRangeIgnored : Obligations.ResizeOutsideRangeIgnored := by
  intro c s n stop hn
  have hillegal : ¬ sizeWf n = true := by rw [sizeWf_iff]; omega
  rw [tick_live c rfl, tick_live c rfl]
  by_cases hs : s.stage = .idle
  · rw [stageTick_idle (s := s.stopped stop) _ _ _ hs, stageTick_idle (s := s.stopped stop) _ _ _ hs,
      idleTick_resize_of_illegal _ _ _ hillegal]
  · exact stageTick_ignores_command (s := s.stopped stop) c hs _ _ _ _

/-- The load port's cells: the word at each address it takes, every other cell as before (R79, R302). -/
theorem read_load {s : State} (hw : Memory.wf s.mem) (ws : List Word) (a : Nat) :
    (s.load ws).mem.read a = if h : a < min 16 ws.length then Cell.instr (ws[a]'(by omega)) else s.mem.read a := by
  rw [State.load_mem, Memory.read_writeWords 0 _ hw]
  simp only [Nat.zero_le, true_and, Nat.sub_zero, List.length_take, List.getElem_take]

theorem load_ic_toNat (s : State) (ws : List Word) : (s.load ws).ic.toNat = min 16 ws.length := by
  rw [State.load_ic, List.length_take, BitVec.toNat_ofNat, Nat.mod_eq_of_lt (by omega)]

/-- Settles O9: the tick is `State.load` after `stop`, whose fields are the load column. -/
theorem loadWritesProgramAndResets : Obligations.LoadWritesProgramAndResets := by
  intro c s ws stop hidle hw h16 h256
  refine ⟨(s.stopped stop).load ws, by rw [tick_idle c rfl hidle, idleTick_load], fun a w ha hws => ?_, fun a ha => ?_,
    load_ic_toNat _ ws, rfl, size_sub_one_toInt h16 h256, heapBase_toNat h16, rfl, fun r => by cases r <;> rfl, rfl, rfl,
    rfl, by simp [Cell.bits], by simp [AluOut.bits], rfl, rfl, rfl, rfl⟩
  · obtain ⟨hlen, rfl⟩ := List.getElem?_eq_some_iff.mp hws
    rw [read_load (s := s.stopped stop) hw, dif_pos (by omega)]
  · rw [read_load (s := s.stopped stop) hw, dif_neg (by omega), State.stopped_mem]

/-! ### The run control -/

theorem idleTick_eq_idleControl (s : State) (c : Config) {cmd : Command} (stop : Bool)
    (h : cmd = .nop ∨ cmd = .step ∨ cmd = .run) : s.idleTick c cmd stop = s.idleControl c cmd stop := by
  obtain rfl | rfl | rfl := h <;> rfl

/-- Every Idle tick resets by `resize` or `load`, or is the run control's (R243). -/
theorem idleTick_cases (s : State) (c : Config) (cmd : Command) (stop : Bool) :
    (∃ n, cmd = .resize n ∧ sizeWf n = true ∧ s.idleTick c cmd stop = State.resize n) ∨
    (∃ ws, cmd = .load ws ∧ s.idleTick c cmd stop = s.load ws) ∨
    ((∀ ws, cmd ≠ .load ws) ∧ (∀ n, cmd = .resize n → ¬ sizeWf n = true) ∧
      ∃ cmd', (cmd' = .run → cmd = .run) ∧ s.idleTick c cmd stop = s.idleControl c cmd' stop) := by
  cases cmd with
  | resize n =>
    by_cases hn : sizeWf n = true
    · exact .inl ⟨n, rfl, hn, if_pos hn⟩
    · refine .inr (.inr ⟨nofun, fun m hm => ?_, .nop, nofun, if_neg hn⟩)
      cases hm
      exact hn
  | load ws => exact .inr (.inl ⟨ws, rfl, rfl⟩)
  | nop => exact .inr (.inr ⟨nofun, nofun, .nop, id, rfl⟩)
  | step => exact .inr (.inr ⟨nofun, nofun, .step, id, rfl⟩)
  | run => exact .inr (.inr ⟨nofun, nofun, .run, id, rfl⟩)

/-- What the run control can do, each with its gate: clear RUN while halted; grant a step by `step`, by `run` or by the
cadence; count an Idle tick; nothing (R231 to R236, R243). -/
theorem idleControl_cases (s : State) (c : Config) (cmd : Command) (stop : Bool) :
    (s.inProgram = false ∧ s.idleControl c cmd stop = s.haltedTick) ∨
    (s.inProgram = true ∧
      ((cmd = .step ∧ s.idleControl c cmd stop = { s with stage := .fetch }) ∨
       (cmd = .run ∧ stop = false ∧ s.idleControl c cmd stop = { s with run := true, idleCnt := 0, stage := .fetch }) ∨
       (s.run = true ∧ stop = false ∧ s.idleControl c cmd stop = { s with idleCnt := 0, stage := .fetch }) ∨
       (s.run = true ∧ stop = false ∧ s.idleControl c cmd stop = { s with idleCnt := s.idleCnt + 1 }) ∨
       s.idleControl c cmd stop = s)) := by
  unfold State.idleControl
  cases hp : s.inProgram with
  | false => exact .inl ⟨rfl, rfl⟩
  | true =>
    refine .inr ⟨rfl, ?_⟩
    rw [if_neg (by simp)]
    split_ifs with hstep hrun hcad hint
    · exact .inl ⟨hstep, rfl⟩
    · exact .inr (.inl ⟨hrun.1, hrun.2, rfl⟩)
    · exact .inr (.inr (.inl ⟨hcad.1, hcad.2, rfl⟩))
    · exact .inr (.inr (.inr (.inl ⟨hcad.1, hcad.2, rfl⟩)))
    · exact .inr (.inr (.inr (.inr rfl)))

/-- The run control writes no architectural state (R223). -/
theorem arch_idleControl (s : State) (c : Config) (cmd : Command) (stop : Bool) :
    arch (s.idleControl c cmd stop) = arch s := by
  obtain ⟨-, e⟩ | ⟨-, ⟨-, e⟩ | ⟨-, -, e⟩ | ⟨-, -, e⟩ | ⟨-, -, e⟩ | e⟩ := idleControl_cases s c cmd stop <;> rw [e] <;> rfl

theorem State.haltedTick_stopped (s : State) (b : Bool) : (s.stopped b).haltedTick = s.haltedTick := rfl

theorem State.stage_of_halted {s : State} (h : s.halted = true) : s.stage = .idle := (State.halted_iff.mp h).1

theorem State.inProgram_of_halted {s : State} (h : s.halted = true) : s.inProgram = false := by
  rw [State.inProgram, decide_eq_false_iff_not, Nat.not_lt]
  exact (State.halted_iff.mp h).2

/-- Settles O12: the gate refuses before any command is looked at. -/
theorem haltedGrantsNothing : Obligations.HaltedGrantsNothing := by
  intro s h
  have hp := State.inProgram_of_halted h
  have hidle := State.stage_of_halted h
  refine ⟨?_, fun c cmd stop hcmd => ?_⟩
  · rw [step_idle hidle, hp, if_neg Bool.false_ne_true]
    rfl
  · rw [tick_idle c rfl hidle, idleTick_eq_idleControl _ _ _ hcmd,
      State.idleControl_halted (s := s.stopped stop) _ _ _ hp, State.haltedTick_stopped]
    rfl

/-! ### Ticks outside Idle -/

/-- Outside Idle `stop` reaches RUN and nothing else: a tick from the stopped state is a tick, then stopped (R223, R235). -/
theorem stageTick_stopped_iff (c : Config) {s t : State} (hs : s.stage ≠ .idle) (cmd : Command) (stop b : Bool) :
    (s.stopped b).stageTick c cmd stop = .next t ↔ ∃ u, s.stageTick c cmd stop = .next u ∧ u.stopped b = t := by
  cases hx : s.stage with
  | idle => exact absurd hx hs
  | fetch =>
    rw [stageTick_fetch _ _ _ hx, stageTick_fetch (s := s.stopped b) _ _ _ hx]
    by_cases hp : s.pc.toNat < s.n.toNat
    · simp only [State.stopped_pc, State.stopped_n, hp, if_true, Host.Outcome.next.injEq, exists_eq_left']
      rfl
    · simp [hp]
  | decode =>
    rw [stageTick_decode _ _ _ hx, stageTick_decode (s := s.stopped b) _ _ _ hx]
    simp only [Host.Outcome.next.injEq, exists_eq_left']
    rfl
  | execute d =>
    rw [stageTick_execute _ _ _ hx, stageTick_execute (s := s.stopped b) _ _ _ hx,
      decodedOutcome_of_arch (s := s) (u := s.stopped b) c d rfl]
    simp only [Host.Outcome.next.injEq, exists_eq_left']
    rfl
  | writeBack d p =>
    rw [stageTick_writeBack _ _ _ hx, stageTick_writeBack (s := s.stopped b) _ _ _ hx]
    simp only [Host.Outcome.next.injEq, exists_eq_left']
    rfl

/-- The same for whole ticks, against the tick with `stop` low. -/
theorem tick_busy_iff (c : Config) {inp : Inputs} {s t : State} (hrst : inp.rst = false) (hs : s.stage ≠ .idle) :
    tick c inp s = .next t ↔ ∃ u, tick c { inp with stop := false } s = .next u ∧ u.stopped inp.stop = t := by
  rw [tick_live c hrst, tick_live c (inp := { inp with stop := false }) hrst, State.stopped_false,
    stageTick_ignores_command c (s := s.stopped inp.stop) hs inp.cmd inp.cmd inp.stop false,
    stageTick_stopped_iff c hs]

/-- Before WriteBack a busy tick writes no architectural state (R219 to R221). -/
theorem arch_of_stageTick (c : Config) {s t : State} {cmd : Command} {stop : Bool}
    (hs : s.stage = .fetch ∨ s.stage = .decode ∨ ∃ d, s.stage = .execute d) (h : s.stageTick c cmd stop = .next t) :
    arch t = arch s := by
  obtain hx | hx | ⟨d, hx⟩ := hs
  · rw [stageTick_fetch _ _ _ hx] at h
    split at h <;> cases h
    rfl
  · rw [stageTick_decode _ _ _ hx] at h
    cases h
    rfl
  · rw [stageTick_execute _ _ _ hx] at h
    cases h
    rfl

/-- An Idle tick that ends in Fetch was the run control's, and wrote no architectural state (R243). -/
theorem arch_of_idleTick_fetch {c : Config} {s : State} {cmd : Command} {stop : Bool}
    (h : (s.idleTick c cmd stop).stage = .fetch) : arch (s.idleTick c cmd stop) = arch s := by
  obtain ⟨n, -, -, e⟩ | ⟨ws, -, e⟩ | ⟨-, -, cmd', -, e⟩ := idleTick_cases s c cmd stop
  · rw [e] at h; cases h
  · rw [e] at h; cases h
  · rw [e, arch_idleControl]

/-- Settles O48: the snapshot by the stages' ticks, the commands and `stop` by what a tick outside Idle looks at. -/
theorem snapshotIsStable : Obligations.SnapshotIsStable := by
  intro c inp s t hrst h
  refine ⟨fun hs => ?_, fun hidle hfetch => ?_, fun hs cmd => ?_, fun hs => ?_⟩
  · rw [tick_live c hrst] at h
    exact arch_of_stageTick (s := s.stopped inp.stop) c hs h
  · rw [tick_idle c hrst hidle] at h
    cases h
    exact arch_of_idleTick_fetch hfetch
  · rw [← h, tick_live c hrst, tick_live c (inp := { inp with cmd := cmd }) hrst]
    exact stageTick_ignores_command (s := s.stopped inp.stop) c hs _ _ _ _
  · obtain ⟨u, hu, rfl⟩ := (tick_busy_iff c hrst hs).mp h
    exact ⟨u, hu, rfl⟩

/-! ### RUN -/

theorem stageTick_run_of_busy (c : Config) {s t : State} {cmd : Command} {stop : Bool} (hs : s.stage ≠ .idle)
    (h : s.stageTick c cmd stop = .next t) : t.run = s.run := by
  cases hx : s.stage with
  | idle => exact absurd hx hs
  | fetch => rw [stageTick_fetch _ _ _ hx] at h; split at h <;> cases h; rfl
  | decode => rw [stageTick_decode _ _ _ hx] at h; cases h; rfl
  | execute d => rw [stageTick_execute _ _ _ hx] at h; cases h; rfl
  | writeBack d p => rw [stageTick_writeBack _ _ _ hx] at h; cases h; rfl

/-- RUN after a tick that leaves it set: it was set, or the run control took `run` inside the program with `stop` low, which
grants a step (R232, R234). -/
theorem run_of_idleTick {c : Config} {s : State} {cmd : Command} {stop : Bool} (h : (s.idleTick c cmd stop).run = true) :
    s.inProgram = true ∧ (∀ ws, cmd ≠ .load ws) ∧ (∀ n, cmd = .resize n → ¬ sizeWf n = true) ∧
      (s.run = true ∨ (cmd = .run ∧ stop = false ∧ (s.idleTick c cmd stop).stage = .fetch ∧
        (s.idleTick c cmd stop).idleCnt = 0)) := by
  obtain ⟨n, -, -, e⟩ | ⟨ws, -, e⟩ | ⟨hload, hresize, cmd', hcmd, e⟩ := idleTick_cases s c cmd stop
  · rw [e] at h; cases h
  · rw [e] at h; cases h
  rw [e] at h ⊢
  obtain ⟨-, e⟩ | ⟨hp, ⟨-, e⟩ | ⟨hrun, hstop, e⟩ | ⟨hrun, -, e⟩ | ⟨hrun, -, e⟩ | e⟩ := idleControl_cases s c cmd' stop <;>
    rw [e] at h ⊢
  · cases h
  · exact ⟨hp, hload, hresize, .inl h⟩
  · exact ⟨hp, hload, hresize, .inr ⟨hcmd hrun, hstop, rfl, rfl⟩⟩
  · exact ⟨hp, hload, hresize, .inl hrun⟩
  · exact ⟨hp, hload, hresize, .inl hrun⟩
  · exact ⟨hp, hload, hresize, .inl h⟩

/-- RUN after a tick that leaves it set: `stop` and `rst` were low, and outside Idle it was set before (R235). -/
theorem run_of_tick {c : Config} {inp : Inputs} {s t : State} (h : tick c inp s = .next t) (hrun : t.run = true) :
    inp.rst = false ∧ inp.stop = false ∧
      ((s.stage ≠ .idle ∧ s.run = true) ∨
       (s.stage = .idle ∧ t = s.idleTick c inp.cmd inp.stop)) := by
  cases hrst : inp.rst with
  | true => simp only [tick, hrst, if_true] at h; cases h; cases hrun
  | false =>
    by_cases hidle : s.stage = .idle
    · rw [tick_idle c hrst hidle] at h
      cases h
      cases hstop : inp.stop with
      | false => exact ⟨rfl, rfl, .inr ⟨hidle, by rw [State.stopped_false]⟩⟩
      | true =>
        rw [hstop] at hrun
        obtain ⟨-, -, -, hr | ⟨-, hr, -⟩⟩ := run_of_idleTick hrun
        · simp at hr
        · cases hr
    · rw [tick_live c hrst] at h
      have hkeep := stageTick_run_of_busy (s := s.stopped inp.stop) c hidle h
      rw [hrun, State.stopped_run, eq_comm, Bool.and_eq_true, Bool.not_eq_true'] at hkeep
      exact ⟨rfl, hkeep.2, .inl ⟨hidle, hkeep.1⟩⟩

/-- Settles O51: each cause contradicts what a tick that leaves RUN set shows. -/
theorem runIsClearedAsStated : Obligations.RunIsClearedAsStated := by
  refine ⟨fun c inp s t h => ?_, fun c cmd s u hs h => ?_, fun c s hidle => ?_⟩
  · cases hrun : t.run with
    | false => exact ⟨fun _ => rfl, fun _ => rfl, fun _ _ => rfl, fun _ => rfl⟩
    | true =>
      obtain ⟨hrst, hstop, hcase⟩ := run_of_tick h hrun
      have hidleTick (hidle : s.stage = .idle) : (s.idleTick c inp.cmd inp.stop).run = true :=
        hcase.elim (fun hbusy => absurd hidle hbusy.1) fun ht => ht.2 ▸ hrun
      refine ⟨fun h => absurd (hstop.symm.trans h) nofun, fun hhalt => ?_, fun hidle hcmd => ?_,
        fun h => absurd (hrst.symm.trans h) nofun⟩
      · have hp := (run_of_idleTick (hidleTick (State.stage_of_halted hhalt))).1
        exact absurd (hp.symm.trans (State.inProgram_of_halted hhalt)) nofun
      · obtain ⟨-, hload, hresize, -⟩ := run_of_idleTick (hidleTick hidle)
        obtain ⟨ws, hws⟩ | ⟨n, hn, hlegal⟩ := hcmd
        · exact absurd hws (hload ws)
        · exact absurd (sizeWf_iff.mpr hlegal) (hresize n hn)
  · refine (tick_busy_iff c rfl hs).mpr ⟨u, h, ?_⟩
    simp [State.stopped]
  · rw [tick_idle c rfl hidle]
    obtain ⟨-, e⟩ | ⟨-, ⟨h, -⟩ | ⟨h, -⟩ | ⟨-, h, -⟩ | ⟨-, h, -⟩ | e⟩ := idleControl_cases (s.stopped true) c .nop true
    · exact congrArg _ e
    · cases h
    · cases h
    · cases h
    · cases h
    · refine congrArg _ (e.trans ?_)
      simp [State.stopped]

/-- `run` taken inside the program sets RUN and grants a step (R234). -/
theorem idleControl_run_granted (c : Config) {s : State} (hp : s.inProgram = true) :
    s.idleControl c .run false = { s with run := true, idleCnt := 0, stage := .fetch } := by
  simp [State.idleControl, hp]

/-- Settles O52: a tick that leaves RUN set without finding it set was the run control's, with `run`. -/
theorem runIsSetOnlyByRun : Obligations.RunIsSetOnlyByRun := by
  refine ⟨fun c inp s t h hrun hclear => ?_, fun c s hidle hic => ?_⟩
  · obtain ⟨hrst, hstop, ⟨-, hset⟩ | ⟨hidle, rfl⟩⟩ := run_of_tick h hrun
    · exact absurd (hclear.symm.trans hset) nofun
    · obtain ⟨hp, -, -, hset | ⟨hcmd, -, hstage, hcnt⟩⟩ := run_of_idleTick hrun
      · exact absurd (hclear.symm.trans hset) nofun
      · exact ⟨hcmd, hstop, hrst, hidle, State.inProgram_iff.mp hp, hstage, hcnt⟩
  · rw [tick_idle c rfl hidle, State.stopped_false]
    exact congrArg _ (idleControl_run_granted c (State.inProgram_iff.mpr hic))

/-! ### The cadence of a continuous run -/

theorem tick_quiet_idle (c : Config) {s : State} (hidle : s.stage = .idle) :
    tick c Inputs.quiet s = .next (s.idleControl c .nop false) :=
  (tick_quiet c s).trans (stageTick_idle c .nop false hidle)

/-- In continuous run the cadence grants a step when IDLECNT has reached RUN_INTERVAL, else counts (R236). -/
theorem idleControl_cadence (c : Config) {s : State} (hp : s.inProgram = true) (hrun : s.run = true) :
    s.idleControl c .nop false =
      if c.runInterval ≤ s.idleCnt then { s with idleCnt := 0, stage := .fetch } else { s with idleCnt := s.idleCnt + 1 } := by
  simp [State.idleControl, hp, hrun]

/-- IDLECNT plays no part in a step. -/
theorem fetchAndRun_idleCnt {s t : State} (k : Nat) (h : fetchAndRun s = .next t) :
    fetchAndRun { s with idleCnt := k } = .next { t with idleCnt := k } := by
  rw [fetchAndRun_eq] at h ⊢
  split at h
  · next hp =>
    cases h
    rw [if_pos hp, decodedOutcome_of_arch (s := s) (u := { s with idleCnt := k }) _ _ rfl]
    rfl
  · cases h

theorem State.stoppedBy_quiet (s : State) (k : Nat) : s.stoppedBy (List.replicate k Inputs.quiet) = s := by
  simp [State.stoppedBy, Inputs.quiet]

/-- The quiet ticks of one round of a continuous run: the Idle ticks left, the grant, and the four stages (R224, R236). -/
theorem ticks_quiet_round {c : Config} (hc : c.endForZeroWraps = Config.hardware.endForZeroWraps) {k : Nat} {s t : State}
    (hidle : s.stage = .idle) (hp : s.inProgram = true) (hrun : s.run = true) (h : fetchAndRun s = .next t)
    (hk : c.runInterval - s.idleCnt = k) :
    ticks c (List.replicate (k + 5) Inputs.quiet) s = .next { t with idleCnt := 0 } := by
  induction k generalizing s t with
  | zero =>
    have hgrant : tick c Inputs.quiet s = .next { s with idleCnt := 0, stage := .fetch } := by
      rw [tick_quiet_idle c hidle, idleControl_cadence c hp hrun, if_pos (by omega)]
    have hend : ({ s with idleCnt := 0, stage := .fetch } : State).finish = .next { t with idleCnt := 0 } := by
      rw [State.finish_busy (by simp), step_fetch rfl]
      exact (fetchAndRun_ignores_stage _ .fetch).trans (fetchAndRun_idleCnt 0 h)
    have hquiet : ∀ i ∈ List.replicate 4 Inputs.quiet, i.rst = false := fun i hi => by rw [List.eq_of_mem_replicate hi]; rfl
    rw [List.replicate_succ, ticks_cons_of_tick hgrant, ticks_finish hc hquiet rfl hend, State.stoppedBy_quiet]
  | succ k ih =>
    have hwait : tick c Inputs.quiet s = .next { s with idleCnt := s.idleCnt + 1 } := by
      rw [tick_quiet_idle c hidle, idleControl_cadence c hp hrun, if_neg (by omega)]
    rw [Nat.add_right_comm, List.replicate_succ, ticks_cons_of_tick hwait]
    exact ih (s := { s with idleCnt := s.idleCnt + 1 }) (t := { t with idleCnt := s.idleCnt + 1 }) hidle hp hrun
      (fetchAndRun_idleCnt _ h) (by simp only; omega)

/-- Settles O50: one round, by the number of Idle ticks left. -/
theorem cadenceChangesNothing : Obligations.CadenceChangesNothing := by
  intro c s t hc hidle hp hrun h
  rw [step_idle hidle, if_pos hp] at h
  exact ticks_quiet_round hc hidle hp hrun h rfl

/-! ### The ports -/

/-- A bit on top of a word, as a number. -/
theorem toNat_ofBool_append {n : Nat} (b : Bool) (v : BitVec n) :
    (BitVec.ofBool b ++ v).toNat = (if b then 2 ^ n else 0) + v.toNat := by
  rw [BitVec.toNat_append, ← Nat.shiftLeft_add_eq_or_of_lt v.isLt, Nat.shiftLeft_eq]
  cases b <;> simp

/-- Settles O53: each output is its register, and the two with a bit on top are read as numbers. -/
theorem outputsShowTheState : Obligations.OutputsShowTheState := by
  intro s a
  refine ⟨fun ha => ?_, fun ha => if_neg (Nat.not_lt.mpr ha), ?_, ?_, ?_, ?_, ?_, toNat_ofBool_append _ _,
    toNat_ofBool_append _ _, rfl, rfl, rfl, rfl, rfl, rfl, rfl, rfl, rfl, rfl, rfl, rfl, State.halted_iff⟩
  · exact (congrArg BitVec.toNat (if_pos ha)).trans (toNat_ofBool_append _ _)
  all_goals
    simp only [State.outputs]
    cases s.stage <;> simp [Stage.code]

/-- Code 2 loads the words that the count says, of the sixteen on the port (R241). -/
theorem inputs_cmd_load (p : Pins) (h : p.cmd = 2) : p.inputs.cmd = .load (p.cmdWords.toList.take p.cmdCount.toNat) := by
  simp [Pins.inputs, h]

/-- Settles O54: the codes by evaluation, the words by what `take` leaves of sixteen. -/
theorem pinsCarryTheCommand : Obligations.PinsCarryTheCommand := by
  intro p
  refine ⟨rfl, rfl, fun h => by simp [Pins.inputs, h], fun h => ⟨_, inputs_cmd_load p h, ?_, fun k hk => ?_⟩,
    fun h => by simp [Pins.inputs, h], fun h => by simp [Pins.inputs, h], fun h => ?_⟩
  · rw [List.length_take, Vector.length_toList, Nat.min_comm]
  · rw [List.length_take] at hk
    rw [List.getElem?_take_of_lt (by omega), Vector.getElem?_toList]
  · have hcode : p.cmd.toNat = 0 ∨ 5 ≤ p.cmd.toNat := h.imp_left fun h => by rw [h]; rfl
    simp only [Pins.inputs]
    split
    · omega
    · omega
    · omega
    · omega
    · rfl

end Sys2Proof.Machine
end

section
/-! PROOFS. The invariants (spec/10_state.md R43): the resetting events meet them, a proposal of Execute is one that WriteBack
may commit, and the commit of such a proposal keeps them. HP's floor is kept beside them, by what the commit does to HP. -/

namespace Sys2Proof.Machine

open Sys2Proof.Claims

/-! ### The resetting events -/

theorem stageOk_idle {s : State} (h : s.stage = .idle) : stageOk s := by
  unfold stageOk
  rw [h]
  trivial

/-- SP at the topmost cell is in range (R42). -/
theorem spInRange_size_sub_one {n : BitVec 9} (h16 : 16 ≤ n.toNat) (h256 : n.toNat ≤ 256) : spInRange n (n - 1) := by
  rw [spInRange, size_sub_one_toInt h16 h256]
  omega

theorem reset_inv : State.reset.Inv where
  memWf := Memory.wf_nil
  cells := nofun
  sizeLow := by decide
  sizeHigh := by decide
  icHigh := by decide
  sp := by decide
  frames := nofun
  stage := stageOk_idle rfl

theorem resize_inv {n : BitVec 9} (h16 : 16 ≤ n.toNat) (h256 : n.toNat ≤ 256) : (State.resize n).Inv where
  memWf := Memory.wf_nil
  cells := nofun
  sizeLow := h16
  sizeHigh := h256
  icHigh := Nat.zero_le 16
  sp := spInRange_size_sub_one h16 h256
  frames := nofun
  stage := stageOk_idle rfl

theorem load_inv {s : State} (hi : s.Inv) (ws : List Word) : (s.load ws).Inv where
  memWf := Memory.wf_writeWords 0 _ hi.memWf
  cells := by
    intro e he
    obtain ⟨hlt, htag⟩ | hold := Memory.mem_writeWords 0 _ hi.memWf he
    · have hlen := List.length_take_le 16 ws
      have hsize := hi.sizeLow
      refine ⟨?_, by rw [Cell.wf, htag, Bool.true_or]⟩
      rw [State.load_n]
      omega
    · exact hi.cells e hold
  sizeLow := hi.sizeLow
  sizeHigh := hi.sizeHigh
  icHigh := by rw [load_ic_toNat]; exact Nat.min_le_left _ _
  sp := spInRange_size_sub_one hi.sizeLow hi.sizeHigh
  frames := nofun
  stage := stageOk_idle rfl

theorem resize_heapFloor {n : BitVec 9} (h16 : 16 ≤ n.toNat) (wrapped : Bool) : (State.resize n).heapFloor wrapped :=
  fun _ => (heapBase_toNat h16).ge

theorem load_heapFloor {s : State} (hi : s.Inv) (ws : List Word) (wrapped : Bool) : (s.load ws).heapFloor wrapped :=
  fun _ => (heapBase_toNat hi.sizeLow).ge

theorem reset_heapFloor (wrapped : Bool) : State.reset.heapFloor wrapped := fun _ => by decide

/-- Settles O55: the reset and the two commands that reset, clause by clause of the invariants. -/
theorem resetMeetsTheInvariants : Obligations.ResetMeetsTheInvariants :=
  ⟨⟨reset_inv, reset_heapFloor false⟩, fun _ h16 h256 => ⟨resize_inv h16 h256, resize_heapFloor h16 false⟩,
    fun _ ws hi => ⟨load_inv hi ws, load_heapFloor hi ws false⟩⟩

/-! ### Which states share the invariants -/

theorem hp_of_arch {s u : State} (h : arch u = arch s) : u.hp = s.hp := by
  obtain ⟨-, -, -, -, -, -, hhp, -⟩ := arch_eq_iff.mp h
  exact hhp

theorem ProposalOk.of_arch {s u : State} {d : Decoded} {p : Proposal} (h : arch u = arch s) (hp : ProposalOk s d p) :
    ProposalOk u d p := by
  obtain ⟨-, -, -, -, -, -, -, -, -, hn⟩ := arch_eq_iff.mp h
  have hafter (size : Byte) : u.hpAfter size = s.hpAfter size := by rw [State.hpAfter, State.hpAfter, hp_of_arch h]
  have hheap : heapOpOk u d p.hp := by
    have := hp.heap
    unfold heapOpOk at this ⊢
    simpa only [hafter] using this
  exact ⟨hn ▸ hp.cell, hn ▸ hp.sp, hheap, hp.loop, hp.drops⟩

/-- The sequencer's clause depends on STAGE and the architectural state alone. -/
theorem stageOk_of_arch {s u : State} (h : arch u = arch s) (hstage : u.stage = s.stage) (hs : stageOk s) : stageOk u := by
  unfold stageOk at hs ⊢
  rw [hstage, inProgram_of_arch h]
  split at hs
  · trivial
  · exact hs
  · exact hs
  · exact hs
  · exact ⟨hs.1, hs.2.of_arch h⟩

/-- The invariants but the sequencer's clause depend on the architectural state alone (R43). -/
theorem State.Inv.of_arch {s u : State} (hi : s.Inv) (h : arch u = arch s) (hstage : stageOk u) : u.Inv := by
  obtain ⟨hm, -, -, -, -, hsp, -, hls, hic, hn⟩ := arch_eq_iff.mp h
  exact ⟨hm ▸ hi.memWf, hm ▸ hn ▸ hi.cells, hn ▸ hi.sizeLow, hn ▸ hi.sizeHigh, hic ▸ hi.icHigh, hsp ▸ hn ▸ hi.sp,
    hls ▸ hi.frames, hstage⟩

theorem State.Inv.stopped {s : State} (hi : s.Inv) (b : Bool) : (s.stopped b).Inv :=
  hi.of_arch (by rfl) (stageOk_of_arch (s := s) rfl rfl hi.stage)

/-! ### What Execute proposes may be committed -/

/-- A proposal that leaves memory, SP, HP and the loop stack alone. -/
theorem proposalOk_of_local {s : State} {d : Decoded} {p : Proposal} (hcell : p.cell = none) (hsp : p.sp = none)
    (hhp : p.hp = none) (hloop : p.loop = none) (hdrops : dropsAll p) : ProposalOk s d p := by
  refine ⟨?_, ?_, ?_, ?_, hdrops⟩
  · rw [hcell]; trivial
  · rw [hsp]; trivial
  · rw [hhp]; trivial
  · rw [hloop]; trivial

/-- A raise proposes nothing to write (R262). -/
theorem proposalOk_raise (s : State) (d : Decoded) (e : Diag) (pc : Byte) : ProposalOk s d (Proposal.raise e pc) :=
  proposalOk_of_local rfl rfl rfl rfl (.inr ⟨rfl, rfl, rfl, rfl, rfl, rfl, rfl⟩)

/-- SP stays in range under a push with room. -/
theorem spInRange_push {s : State} (h0 : 0 ≤ s.sp.toInt) (hn : s.sp.toInt < s.n.toNat) : spInRange s.n (s.sp - 1) := by
  rw [spInRange, sp_sub_one h0]
  omega

/-- SP stays in range under a pop of a cell inside memory. -/
theorem spInRange_pop {s : State} (h256 : s.n.toNat ≤ 256) (h0 : 0 ≤ s.sp.toInt + 1) (hn : s.sp.toInt + 1 < s.n.toNat) :
    spInRange s.n (s.sp + 1) := by
  rw [spInRange, sp_add_one (by omega)]
  omega

/-- A push with room writes inside memory and keeps SP in range. -/
theorem proposalOk_push {s : State} {d : Decoded} (v next : Byte) (h0 : 0 ≤ s.sp.toInt) (hn : s.sp.toInt < s.n.toNat) :
    ProposalOk s d (pushProposal v next s) where
  cell := by rw [pushProposal, cellOpOk]; omega
  sp := spInRange_push h0 hn
  heap := trivial
  loop := trivial
  drops := .inl rfl

/-- A pop of a cell inside memory keeps SP in range, whatever it does with the byte. -/
theorem proposalOk_pop {s : State} {d : Decoded} {p : Proposal} (hi : s.Inv) (h0 : 0 ≤ s.sp.toInt + 1)
    (hn : s.sp.toInt + 1 < s.n.toNat) (hcell : p.cell = none) (hsp : p.sp = some (s.sp + 1)) (hhp : p.hp = none)
    (hloop : p.loop = none) (hdiag : p.diag = none) : ProposalOk s d p := by
  refine ⟨?_, ?_, ?_, ?_, .inl hdiag⟩
  · rw [hcell]; trivial
  · rw [hsp]; exact spInRange_pop hi.sizeHigh h0 hn
  · rw [hhp]; trivial
  · rw [hloop]; trivial

/-- Inside the program every proposal of an instruction is one WriteBack may commit (R35, R43). -/
theorem proposalOk_instrOutcome {s : State} (hi : s.Inv) (hp : s.inProgram = true) (c : Config) (i : Instr) :
    ProposalOk s (.valid i) (instrOutcome c i s) := by
  cases i with
  | add | sub | and | or | xor | mov | cmp => exact proposalOk_of_local rfl rfl rfl rfl (.inl rfl)
  | load dst addr =>
    obtain ⟨d, -, e⟩ | ⟨v, -, e⟩ := instrOutcome_shape c (.load dst addr) s <;> rw [e]
    · exact proposalOk_raise _ _ _ _
    · exact proposalOk_of_local rfl rfl rfl rfl (.inl rfl)
  | store addr src =>
    obtain ⟨-, e⟩ | ⟨hn, e⟩ := instrOutcome_shape c (.store addr src) s <;> rw [e]
    · exact proposalOk_raise _ _ _ _
    · exact ⟨hn, trivial, trivial, trivial, .inl rfl⟩
  | je addr =>
    have e : instrOutcome c (.je addr) s = _ := instrOutcome_shape c (.je addr) s
    rw [e]
    exact proposalOk_of_local rfl rfl rfl rfl (.inl rfl)
  | jne addr =>
    have e : instrOutcome c (.jne addr) s = _ := instrOutcome_shape c (.jne addr) s
    rw [e]
    exact proposalOk_of_local rfl rfl rfl rfl (.inl rfl)
  | push reg =>
    obtain ⟨-, e⟩ | ⟨⟨h0, hn⟩, e⟩ := instrOutcome_shape c (.push reg) s <;> rw [e]
    · exact proposalOk_raise _ _ _ _
    · exact proposalOk_push _ (pcNext s.pc) h0 hn
  | call addr =>
    obtain ⟨-, e⟩ | ⟨⟨h0, hn⟩, e⟩ := instrOutcome_shape c (.call addr) s <;> rw [e]
    · exact proposalOk_raise _ _ _ _
    · exact proposalOk_push _ addr h0 hn
  | pop reg =>
    obtain ⟨d, -, e⟩ | ⟨⟨h0, hn⟩, -, e⟩ := instrOutcome_shape c (.pop reg) s <;> rw [e]
    · exact proposalOk_raise _ _ _ _
    · exact proposalOk_pop hi h0 hn rfl rfl rfl rfl rfl
  | ret =>
    obtain ⟨d, -, e⟩ | ⟨⟨h0, hn⟩, -, e⟩ := instrOutcome_shape c .ret s <;> rw [e]
    · exact proposalOk_raise _ _ _ _
    · exact proposalOk_pop hi h0 hn rfl rfl rfl rfl rfl
  | alloc reg size => exact ⟨trivial, trivial, ⟨reg, size, rfl, rfl⟩, trivial, .inl rfl⟩
  | forLoop reg count =>
    have hpc : s.pc.toNat < 16 := (State.inProgram_iff.mp hp).trans_le hi.icHigh
    exact ⟨trivial, trivial, trivial, hpc, .inl rfl⟩
  | endFor =>
    obtain ⟨-, e⟩ | ⟨f, rest, -, ⟨-, e⟩ | ⟨-, e⟩⟩ := instrOutcome_shape c .endFor s <;> rw [e]
    · exact proposalOk_raise _ _ _ _
    · exact proposalOk_of_local rfl rfl rfl rfl (.inl rfl)
    · exact ⟨trivial, trivial, trivial, trivial, .inl rfl⟩

theorem proposalOk_decodedOutcome {s : State} (hi : s.Inv) (hp : s.inProgram = true) (c : Config) (d : Decoded) :
    ProposalOk s d (decodedOutcome c d s) := by
  cases d with
  | unknown | malformed => exact proposalOk_raise _ _ _ _
  | valid i => exact proposalOk_instrOutcome hi hp c i

/-! ### What a commit keeps -/

/-- A commit writes inside memory and writes a data byte, so every listed cell stays in memory and well formed (R61, R65). -/
theorem cellsOk_memAfter {n : BitVec 9} {m : Memory} {o : Option (Nat × Byte)} (hw : Memory.wf m) (hm : cellsOk n m)
    (ho : cellOpOk n o) : cellsOk n (memAfter m o) := by
  rcases o with _ | ⟨a, v⟩
  · exact hm
  · intro e he
    obtain ⟨rfl, -⟩ | ⟨hold, -⟩ := Memory.mem_write hw he
    · exact ⟨ho, cell_byte_wf v⟩
    · exact hm e hold

theorem framesOk_loopAfter {ls : List LoopFrame} {o : Option LoopOp} (hls : framesOk ls) (ho : loopOpOk o) :
    framesOk (loopAfter ls o) := by
  rcases o with _ | f | _
  · exact hls
  · exact List.forall_mem_cons.mpr ⟨ho, hls⟩
  · exact fun f hf => hls f (List.mem_of_mem_tail hf)

theorem spInRange_getD {n sp : BitVec 9} {o : Option (BitVec 9)} (hsp : spInRange n sp) (ho : spOpOk n o) :
    spInRange n (o.getD sp) := by
  cases o with
  | none => exact hsp
  | some x => exact ho

theorem State.Inv.commit {s : State} {d : Decoded} {p : Proposal} (hi : s.Inv) (hp : ProposalOk s d p) : (s.commit p).Inv where
  memWf := Memory.wf_memAfter p.cell hi.memWf
  cells := cellsOk_memAfter hi.memWf hi.cells hp.cell
  sizeLow := hi.sizeLow
  sizeHigh := hi.sizeHigh
  icHigh := hi.icHigh
  sp := spInRange_getD hi.sp hp.sp
  frames := framesOk_loopAfter hi.frames hp.loop
  stage := stageOk_idle rfl

/-- HP's floor is kept where HP is. -/
theorem heapFloor_of_hp {s t : State} {wrapped : Bool} (h : t.hp = s.hp) (b : Bool) (hs : s.heapFloor wrapped) :
    t.heapFloor (wrapped || b) := fun hw => by
  rw [Bool.or_eq_false_iff] at hw
  rw [h]
  exact hs hw.1

/-- A commit moves HP only by the ALLOC in DEC, and below 16 only when that wraps (R26, R184). -/
theorem heapFloor_commit {s : State} {d : Decoded} {p : Proposal} {wrapped : Bool} (hp : heapOpOk s d p.hp)
    (hs : s.heapFloor wrapped) : (s.commit p).heapFloor (wrapped || allocWraps s d) := by
  cases hhp : p.hp with
  | none => exact heapFloor_of_hp (by rw [State.commit_hp, hhp, Option.getD_none]) _ hs
  | some h =>
    rw [hhp] at hp
    obtain ⟨reg, size, rfl, rfl⟩ := hp
    intro hw
    simp only [Bool.or_eq_false_iff, allocWraps, decide_eq_false_iff_not] at hw
    have hfloor := hs hw.1
    rw [State.commit_hp, hhp, Option.getD_some, State.hpAfter_toNat]
    omega

/-- The invariants in the next state, with HP's floor carried over unless this move wraps HP. -/
def InvKept (s t : State) (wraps : Bool) : Prop :=
  t.Inv ∧ ∀ wrapped, s.heapFloor wrapped → t.heapFloor (wrapped || wraps)

/-- A move that writes no architectural state keeps the invariants. -/
theorem invKept_of_arch {s t : State} (hi : s.Inv) (h : arch t = arch s) (hstage : stageOk t) (b : Bool) : InvKept s t b :=
  ⟨hi.of_arch h hstage, fun _ hs => heapFloor_of_hp (hp_of_arch h) b hs⟩

/-- A move that ends as the commit of a fit proposal keeps the invariants. -/
theorem invKept_of_commit {s t : State} {d : Decoded} {p : Proposal} (hi : s.Inv) (hp : ProposalOk s d p)
    (h : arch t = arch (s.commit p)) (hidle : t.stage = .idle) : InvKept s t (allocWraps s d) := by
  have hcommit := hi.commit hp
  refine ⟨hcommit.of_arch h (stageOk_idle hidle), fun wrapped hs => ?_⟩
  rw [← Bool.or_false (wrapped || _)]
  exact heapFloor_of_hp (hp_of_arch h) false (heapFloor_commit hp.heap hs)

/-! ### Steps -/

theorem invKept_runDecoded {s t : State} {d : Decoded} (hi : s.Inv) (hp : s.inProgram = true)
    (h : runDecoded d s = .next t) : InvKept s t (allocWraps s d) := by
  rw [runDecoded_eq] at h
  cases h
  exact invKept_of_commit hi (proposalOk_decodedOutcome hi hp _ d) rfl rfl

theorem invKept_fetchAndRun {s t : State} (hi : s.Inv) (hp : s.inProgram = true) (h : fetchAndRun s = .next t) :
    InvKept s t (allocWraps s (decode (s.mem.read s.pc.toNat))) := by
  rw [fetchAndRun_eq, if_pos (hi.pc_lt_size hp)] at h
  cases h
  exact invKept_of_commit hi (proposalOk_decodedOutcome hi hp _ _) rfl rfl

/-- What PROP holds in WriteBack may be committed (R35, R43). -/
theorem State.Inv.proposalOk {s : State} {d : Decoded} {p : Proposal} (hi : s.Inv) (hs : s.stage = .writeBack d p) :
    ProposalOk s d p := by
  have h := hi.stage
  rw [stageOk, hs] at h
  exact h.2

/-- Settles O56: a step commits what Execute proposes, of the cell fetched or of what the stage in flight holds. -/
theorem stepKeepsTheInvariants : Obligations.StepKeepsTheInvariants := by
  intro s t hi h
  have hbusy := hi.inProgram_of_busy
  change InvKept s t s.stepWraps
  cases hs : s.stage with
  | idle =>
    rw [step_idle hs] at h
    by_cases hp : s.inProgram = true
    · rw [if_pos hp] at h
      simpa [State.stepWraps, State.stepRuns, hs, hp] using invKept_fetchAndRun hi hp h
    · rw [if_neg hp] at h
      cases h
      exact invKept_of_arch (t := s.haltedTick) hi rfl (stageOk_idle hs) _
  | fetch =>
    rw [step_fetch hs] at h
    simpa [State.stepWraps, State.stepRuns, hs] using invKept_fetchAndRun hi (hbusy (by simp [hs])) h
  | decode =>
    rw [step_decode hs] at h
    simpa [State.stepWraps, State.stepRuns, hs] using invKept_runDecoded hi (hbusy (by simp [hs])) h
  | execute d =>
    rw [step_execute hs] at h
    simpa [State.stepWraps, State.stepRuns, hs] using invKept_runDecoded hi (hbusy (by simp [hs])) h
  | writeBack d p =>
    rw [step_writeBack hs] at h
    cases h
    simpa [State.stepWraps, State.stepRuns, hs] using invKept_of_commit hi (hi.proposalOk hs) rfl rfl

/-! ### Ticks -/

/-- The run control grants a step inside the program only (R233). -/
theorem invKept_idleControl {s : State} (hi : s.Inv) (hidle : s.stage = .idle) (c : Config) (cmd : Command) (stop : Bool)
    (b : Bool) : InvKept s (s.idleControl c cmd stop) b := by
  refine invKept_of_arch hi (arch_idleControl s c cmd stop) ?_ b
  obtain ⟨-, e⟩ | ⟨hp, ⟨-, e⟩ | ⟨-, -, e⟩ | ⟨-, -, e⟩ | ⟨-, -, e⟩ | e⟩ := idleControl_cases s c cmd stop <;> rw [e]
  · exact stageOk_idle hidle
  · exact hp
  · exact hp
  · exact hp
  · exact stageOk_idle hidle
  · exact stageOk_idle hidle

/-- An Idle tick keeps the invariants, and puts HP at its base when it resets (R42, R243). -/
theorem invKept_idleTick {s : State} (hi : s.Inv) (hidle : s.stage = .idle) (c : Config) (cmd : Command) (stop b : Bool) :
    InvKept s (s.idleTick c cmd stop) b ∧
      ((∃ ws, cmd = .load ws) ∨ (∃ n, cmd = .resize n ∧ 16 ≤ n.toNat ∧ n.toNat ≤ 256) →
        (s.idleTick c cmd stop).heapFloor false) := by
  obtain ⟨n, -, hn, e⟩ | ⟨ws, -, e⟩ | ⟨hload, hresize, cmd', -, e⟩ := idleTick_cases s c cmd stop <;> rw [e]
  · obtain ⟨h16, h256⟩ := sizeWf_iff.mp hn
    exact ⟨⟨resize_inv h16 h256, fun _ _ => resize_heapFloor h16 _⟩, fun _ => resize_heapFloor h16 false⟩
  · exact ⟨⟨load_inv hi ws, fun _ _ => load_heapFloor hi ws _⟩, fun _ => load_heapFloor hi ws false⟩
  · refine ⟨invKept_idleControl hi hidle c cmd' stop b, ?_⟩
    rintro (⟨ws, h⟩ | ⟨n, h, hlegal⟩)
    · exact absurd h (hload ws)
    · exact absurd (sizeWf_iff.mpr hlegal) (hresize n h)

/-- A tick outside Idle answers and keeps the invariants; only WriteBack's can move HP (R219 to R222). -/
theorem invKept_stageTick {s : State} (hi : s.Inv) (hs : s.stage ≠ .idle) (c : Config) (cmd : Command) (stop : Bool) :
    ∃ t, s.stageTick c cmd stop = .next t ∧ InvKept s t s.tickWraps := by
  have hp := hi.inProgram_of_busy hs
  cases hx : s.stage with
  | idle => exact absurd hx hs
  | fetch =>
    refine ⟨_, (stageTick_fetch c cmd stop hx).trans (if_pos (hi.pc_lt_size hp)), ?_⟩
    exact invKept_of_arch hi (by rfl) (by exact hp) _
  | decode => exact ⟨_, stageTick_decode c cmd stop hx, invKept_of_arch hi (by rfl) (by exact hp) _⟩
  | execute d =>
    refine ⟨_, stageTick_execute c cmd stop hx, invKept_of_arch hi (by rfl) ?_ _⟩
    exact ⟨hp, (proposalOk_decodedOutcome hi hp c d).of_arch (by rfl)⟩
  | writeBack d p =>
    refine ⟨_, stageTick_writeBack c cmd stop hx, ?_⟩
    simpa [State.tickWraps, State.tickCommits, hx] using invKept_of_commit hi (hi.proposalOk hx) rfl rfl

/-- Settles O57: `rst`, Idle with its commands, and the busy stages; `stop` is applied first and leaves the invariants. -/
theorem tickKeepsTheInvariants : Obligations.TickKeepsTheInvariants := by
  intro c inp s hi
  cases hrst : inp.rst with
  | true =>
    exact ⟨State.reset, by simp [tick, hrst], reset_inv, fun _ _ => reset_heapFloor _, fun _ => reset_heapFloor false⟩
  | false =>
    have hstop := hi.stopped inp.stop
    by_cases hidle : s.stage = .idle
    · obtain ⟨⟨hinv, hfloor⟩, hreset⟩ := invKept_idleTick hstop hidle c inp.cmd inp.stop s.tickWraps
      exact ⟨_, tick_idle c hrst hidle, hinv, hfloor, fun h => hreset (h.resolve_left nofun).2⟩
    · obtain ⟨t, ht, hinv, hfloor⟩ := invKept_stageTick hstop hidle c inp.cmd inp.stop
      exact ⟨t, (tick_live c hrst s).trans ht, hinv, hfloor, fun h => absurd (h.resolve_left nofun).1 hidle⟩

end Sys2Proof.Machine
end

section
/-! PROOFS. The text form (spec/30_encoding.md R104 to R112): the printed tokens of an instruction are read back field by field,
a text assembles line by line, and the lines that assemble to rejected words. -/

namespace Sys2Proof.Machine

/-! ### The printed text -/

theorem bit_toNat (v : Byte) (k : Nat) : (v.getLsbD k).toNat = v.toNat / 2 ^ k % 2 := by
  rw [← testBit_byte, Nat.toNat_testBit]

/-- Eight binary digits, weighed by their places, are the byte (R110). -/
theorem binaryValue_binaryText (v : Byte) : binaryValue (binaryText v) = v.toNat := by
  have hv := v.isLt
  have hdigit (b : Bool) : (if (if b then '1' else '0') = '1' then 1 else 0) = b.toNat := by cases b <;> rfl
  have htop : v.toNat / 2 ^ 7 % 2 = v.toNat / 2 ^ 7 := Nat.mod_eq_of_lt (by omega)
  have hstep (k : Nat) : 2 * (v.toNat / 2 ^ (k + 1)) + v.toNat / 2 ^ k % 2 = v.toNat / 2 ^ k := by
    rw [pow_succ, ← Nat.div_div_eq_div_mul, Nat.div_add_mod]
  simp only [binaryValue, binaryText, List.map_cons, List.map_nil, List.foldl_cons, List.foldl_nil, hdigit, bit_toNat]
  rw [htop, Nat.mul_zero, Nat.zero_add, hstep 6, hstep 5, hstep 4, hstep 3, hstep 2, hstep 1, hstep 0, pow_zero, Nat.div_one]

theorem isBit_of_mem_binaryText {v : Byte} {ch : Char} (h : ch ∈ binaryText v) : isBit ch = true := by
  obtain ⟨k, -, rfl⟩ := List.mem_map.mp h
  cases v.getLsbD k <;> rfl

theorem literalToken_binaryText (v : Byte) : literalToken (some (binaryText v)) = .value v.toNat := by
  rw [literalToken, if_pos ⟨rfl, List.all_eq_true.mpr fun _ h => isBit_of_mem_binaryText h⟩, binaryValue_binaryText]

theorem isSpace_of_isBit {ch : Char} (h : isBit ch = true) : isSpace ch = false := by
  have hch : ch = '0' ∨ ch = '1' := by simpa [isBit] using h
  obtain rfl | rfl := hch <;> decide

theorem isToken_binaryText (v : Byte) : isToken (binaryText v) = true :=
  isToken_iff.mpr ⟨List.cons_ne_nil _ _, fun _ h => isSpace_of_isBit (isBit_of_mem_binaryText h)⟩

/-- The line of a mnemonic with a number and a register operand (R97, R111). -/
theorem asmLine_numReg {m : List Char} {op : Nat} (hm : isToken m = true) (hrow : mnemonicRow m = some (op, .numReg))
    (v : Byte) (r : Reg) : asmLine (spaced [m, decimalText v, Reg.text r]) = .word (wordOf op r.bit 0 v.toNat) := by
  have ht : ∀ t ∈ [m, decimalText v, Reg.text r], isToken t = true := by simp [hm, isToken_regText, isToken_decimalText]
  simp [asmLine, tokensOf_spaced ht, asmTokens, hrow, regToken_text, numToken_decimalText, assembleFields, FieldResult.val]

/-- The line of a mnemonic with a register and a binary literal. -/
theorem asmLine_regLiteral {m : List Char} {op : Nat} (hm : isToken m = true) (hrow : mnemonicRow m = some (op, .regLiteral))
    (r : Reg) (v : Byte) : asmLine (spaced [m, Reg.text r, binaryText v]) = .word (wordOf op r.bit 0 v.toNat) := by
  have ht : ∀ t ∈ [m, Reg.text r, binaryText v], isToken t = true := by simp [hm, isToken_regText, isToken_binaryText]
  simp [asmLine, tokensOf_spaced ht, asmTokens, hrow, regToken_text, literalToken_binaryText, assembleFields,
    FieldResult.val]

/-- The line of a mnemonic alone. -/
theorem asmLine_nothing {m : List Char} {op : Nat} (hm : isToken m = true) (hrow : mnemonicRow m = some (op, .nothing)) :
    asmLine (spaced [m]) = .word (wordOf op 0 0 0) := by
  have ht : ∀ t ∈ [m], isToken t = true := by simp [hm]
  simp [asmLine, tokensOf_spaced ht, asmTokens, hrow, assembleFields, FieldResult.val]

/-- Settles O58: the printed line has the operand positions of its mnemonic's row, and each is read back as its field. -/
theorem printedTextAssemblesBack : Obligations.PrintedTextAssemblesBack := by
  intro i
  cases i with
  | load r v | alloc r v | forLoop r v => exact asmLine_regNum (by decide) (by decide) r v
  | store v r => exact asmLine_numReg (by decide) (by decide) v r
  | add a b | sub a b | and a b | or a b | xor a b | cmp a b => exact asmLine_regReg (by decide) (by decide) a b
  | mov r v => exact asmLine_regLiteral (by decide) (by decide) r v
  | je v | jne v | call v => exact asmLine_num (by decide) (by decide) v
  | push r | pop r => exact asmLine_reg (by decide) (by decide) r
  | ret | endFor => exact asmLine_nothing (by decide) (by decide)

/-! ### Texts of several lines -/

/-- Lines assemble to words exactly when each one assembles to its own (R111). -/
theorem asmAll_eq_some_iff {ls : List (List (List Char))} {ws : List Word} :
    asmAll ls = some ws ↔ ls.map asmTokens = ws.map AsmResult.word := by
  induction ls generalizing ws with
  | nil => cases ws <;> simp [asmAll]
  | cons l ls ih =>
    rw [asmAll]
    cases hl : asmTokens l with
    | refused => cases ws <;> simp [hl]
    | word w =>
      cases ws with
      | nil => cases asmAll ls <;> simp
      | cons v vs =>
        rw [List.map_cons, List.map_cons, List.cons.injEq, ← ih, hl, AsmResult.word.injEq]
        cases asmAll ls <;> simp

/-- A refused line refuses the text (R111, D6). -/
theorem asmAll_of_refused {ls : List (List (List Char))} {l : List (List Char)} (hl : l ∈ ls)
    (h : asmTokens l = .refused) : asmAll ls = none := by
  cases hall : asmAll ls with
  | none => rfl
  | some ws =>
    have hmem : AsmResult.refused ∈ ws.map AsmResult.word := asmAll_eq_some_iff.mp hall ▸ h ▸ List.mem_map_of_mem hl
    simp at hmem

/-- Settles O59: `assemble` looks at the first sixteen lines only, and of those `asmAll` says which words they give. -/
theorem assemblyTruncatesAtSixteen : Obligations.AssemblyTruncatesAtSixteen := by
  refine ⟨fun text ws h => asmAll_eq_some_iff.mpr h, fun text ⟨l, hl, h⟩ => asmAll_of_refused hl h, fun text ws h => ?_,
    fun a b h => congrArg asmAll h⟩
  have hlen := congrArg List.length (asmAll_eq_some_iff.mp h)
  rw [List.length_map, List.length_map, List.length_take] at hlen
  exact hlen.symm

/-! ### Bad lines -/

theorem mnemonicRow_eq_none {m : List Char} (h : ∀ r ∈ mnemonicRows, r.1 ≠ m) : mnemonicRow m = none := by
  rw [mnemonicRow, Option.map_eq_none_iff, List.find?_eq_none]
  simpa using h

/-- A token whose first character is no digit and no sign is non-numeric (R109). -/
theorem numToken_nonNumeric {ch : Char} (cs : List Char) (hdigit : ch.toNat < 48 ∨ 57 < ch.toNat) (hplus : ch ≠ '+')
    (hminus : ch ≠ '-') : numToken (some (ch :: cs)) = .nonNumeric := by
  have hd : isDigit ch = false := by
    rw [isDigit, Bool.and_eq_false_iff, decide_eq_false_iff_not, decide_eq_false_iff_not]
    omega
  simp [numToken, hd, hplus, hminus]

/-- The malformed word of an opcode (R102). -/
def malformedWord (op : Nat) : Word := BitVec.ofNat 16 (op <<< 11 ||| 0x07FF)

/-- A non-numeric number position with nothing refused gives the malformed word (R102, R111). -/
theorem assembleFields_nonNumeric (op x : Nat) : assembleFields op (.value x) (.value 0) .nonNumeric = .word (malformedWord op) := by
  simp [assembleFields, malformedWord]

section
variable {m t : List Char} {op : Nat} (ht : numToken (some t) = .nonNumeric) (r : Reg) (more : List (List Char))
include ht

theorem asmTokens_regNum_nonNumeric (hrow : mnemonicRow m = some (op, .regNum)) :
    asmTokens (m :: Reg.text r :: t :: more) = .word (malformedWord op) := by
  simp [asmTokens, hrow, regToken_text, ht, assembleFields_nonNumeric]

theorem asmTokens_numReg_nonNumeric (hrow : mnemonicRow m = some (op, .numReg)) :
    asmTokens (m :: t :: Reg.text r :: more) = .word (malformedWord op) := by
  simp [asmTokens, hrow, regToken_text, ht, assembleFields_nonNumeric]

theorem asmTokens_num_nonNumeric (hrow : mnemonicRow m = some (op, .num)) :
    asmTokens (m :: t :: more) = .word (malformedWord op) := by
  simp [asmTokens, hrow, ht, assembleFields_nonNumeric]

end

/-- The malformed word of every opcode sets a must-be-zero bit (R98, R102). -/
theorem decode_malformedWord {op : Nat} (h1 : 1 ≤ op) (h18 : op ≤ 18) :
    decode (Cell.instr (malformedWord op)) = .malformed := by
  interval_cases op <;> decide

/-- Settles O60: the unknown mnemonic by its missing row, the non-numeric lines by their operand positions. -/
theorem badLinesAssembleToRejectedWords : Obligations.BadLinesAssembleToRejectedWords := by
  refine ⟨fun m ops h => by simp [asmTokens, mnemonicRow_eq_none h], by decide, fun ch cs r more hdigit hplus hminus => ?_,
    fun op h1 h18 => decode_malformedWord h1 h18⟩
  have ht := numToken_nonNumeric cs hdigit hplus hminus
  exact ⟨asmTokens_regNum_nonNumeric ht r more (by decide), asmTokens_numReg_nonNumeric ht r more (by decide),
    asmTokens_num_nonNumeric ht more (by decide), asmTokens_num_nonNumeric ht more (by decide),
    asmTokens_num_nonNumeric ht more (by decide), asmTokens_regNum_nonNumeric ht r more (by decide),
    asmTokens_regNum_nonNumeric ht r more (by decide)⟩

end Sys2Proof.Machine
end
